-- ==== Sys2Proof/Word.lean ====
section
/-! DEFINITION. The value types of the QXW packet framer's ports and fields (spec 00_scope.md R7; 30_encoding.md R43). -/

namespace Sys2Proof

/-- `u8`: a frame byte, a code, or the operand `A` or `B` (R7, R43). -/
abbrev Byte := BitVec 8

/-- A 16-bit value: the operands `X` and `Y`, two's complement (R43, R44), and the result `res` (R22). -/
abbrev Half := BitVec 16

/-- A command word (R43): `CMD_W` = 64 bits (R6). -/
abbrev Word := BitVec 64

end Sys2Proof
end

