-- ==== Sys2Proof/Syntax.lean ====
section
/-! DEFINITION. The operations as syntax: one constructor of `Instr` per row of spec/opcode_table.json
(30_encoding.md R45), and the abstract syntax of an assembler line (R48, R49). -/

namespace Sys2Proof

/-- One legal command word with its operands (R45). Each operand has the width of its field, so every term is one
legal operation (R46): an index or a preset number out of range is legal as a word and answered by a status. -/
inductive Instr where
  | pushPay (data : Byte)
  | encode (command : Byte) (type : Byte)
  | pushRx (data : Byte)
  | decode
  | encGain (gain : Half)
  | decGain (code : Byte)
  | encQ (q : Half)
  | decQ (code : Byte)
  | setBand (index : Byte) (gain : Half) (q : Half)
  | setBandGain (index : Byte) (gain : Half)
  | setBandQ (index : Byte) (q : Half)
  | readBand (index : Byte)
  | stagePreset (gain : Half) (q : Half)
  | applyPreset
  | resetEq
  | eqPayload
  | buildSelectEq (preset : Byte)
  | buildCustomEq
  | buildDevinfoReq
  | clear
  deriving DecidableEq, Repr

/-- The operation names of R45, without operands. -/
inductive Op where
  | pushPay | encode | pushRx | decode
  | encGain | decGain | encQ | decQ
  | setBand | setBandGain | setBandQ | readBand | stagePreset | applyPreset | resetEq | eqPayload
  | buildSelectEq | buildCustomEq | buildDevinfoReq
  | clear
  deriving DecidableEq, Repr

/-- The formats of R45, each named by the fields it uses. -/
inductive Format where
  | F0 | FA | FAB | FX | FY | FAX | FAY | FAXY | FXY
  deriving DecidableEq, Repr

/-- The rows of the table of R45, in its order. -/
def Op.all : List Op :=
  [.pushPay, .encode, .pushRx, .decode,
   .encGain, .decGain, .encQ, .decQ,
   .setBand, .setBandGain, .setBandQ, .readBand, .stagePreset, .applyPreset, .resetEq, .eqPayload,
   .buildSelectEq, .buildCustomEq, .buildDevinfoReq, .clear]

/-- The operation an instruction is. -/
def Instr.op : Instr → Op
  | .pushPay _ => .pushPay
  | .encode _ _ => .encode
  | .pushRx _ => .pushRx
  | .decode => .decode
  | .encGain _ => .encGain
  | .decGain _ => .decGain
  | .encQ _ => .encQ
  | .decQ _ => .decQ
  | .setBand _ _ _ => .setBand
  | .setBandGain _ _ => .setBandGain
  | .setBandQ _ _ => .setBandQ
  | .readBand _ => .readBand
  | .stagePreset _ _ => .stagePreset
  | .applyPreset => .applyPreset
  | .resetEq => .resetEq
  | .eqPayload => .eqPayload
  | .buildSelectEq _ => .buildSelectEq
  | .buildCustomEq => .buildCustomEq
  | .buildDevinfoReq => .buildDevinfoReq
  | .clear => .clear

/-- A number as an assembler line writes it (R48): signed decimal, or `0x` hex. -/
inductive Literal where
  | dec (value : Int)
  | hex (value : Nat)
  deriving DecidableEq, Repr

/-- An assembler line (R48) or pseudo-instruction (R49), its operands in the order written. -/
inductive AsmLine where
  /-- `MNEMONIC op1, op2, ...` -/
  | op (op : Op) (args : List Literal)
  /-- `.word w` -/
  | word (w : Literal)
  /-- `FRAME c, t, b0, ..., b(n-1)` -/
  | frame (args : List Literal)
  /-- `RECV b0, ..., b(n-1)` -/
  | recv (args : List Literal)
  /-- `PRESET g0, q0, g1, q1, ...` -/
  | preset (args : List Literal)
  deriving DecidableEq, Repr

end Sys2Proof
end

