-- ==== Sys2Proof/Decode.lean ====
section
/-! DEFINITION. The command word (30_encoding.md part B): the opcode map and formats of R45, `decode_word` of R46 with the
three grounds of R47, the encoder of R48, and the operand literals of the assembler (R48). -/

namespace Sys2Proof

/-! ### The opcode map (R45) -/

/-- `OPC` of each operation (R45; the spec's D4). -/
def Op.opc : Op → Byte
  | .pushPay => 0x01
  | .encode => 0x02
  | .pushRx => 0x03
  | .decode => 0x04
  | .encGain => 0x10
  | .decGain => 0x11
  | .encQ => 0x12
  | .decQ => 0x13
  | .setBand => 0x20
  | .setBandGain => 0x21
  | .setBandQ => 0x22
  | .readBand => 0x23
  | .stagePreset => 0x24
  | .applyPreset => 0x25
  | .resetEq => 0x26
  | .eqPayload => 0x27
  | .buildSelectEq => 0x30
  | .buildCustomEq => 0x31
  | .buildDevinfoReq => 0x32
  | .clear => 0x3F

/-- The format of each operation (R45). -/
def Op.format : Op → Format
  | .pushPay => .FA
  | .encode => .FAB
  | .pushRx => .FA
  | .decode => .F0
  | .encGain => .FX
  | .decGain => .FA
  | .encQ => .FY
  | .decQ => .FA
  | .setBand => .FAXY
  | .setBandGain => .FAX
  | .setBandQ => .FAY
  | .readBand => .FA
  | .stagePreset => .FXY
  | .applyPreset => .F0
  | .resetEq => .F0
  | .eqPayload => .F0
  | .buildSelectEq => .FA
  | .buildCustomEq => .F0
  | .buildDevinfoReq => .F0
  | .clear => .F0

/-- Whether a format uses field `A` (R45). -/
def Format.usesA : Format → Bool
  | .FA | .FAB | .FAX | .FAY | .FAXY => true
  | .F0 | .FX | .FY | .FXY => false

/-- Whether a format uses field `B` (R45). -/
def Format.usesB : Format → Bool
  | .FAB => true
  | .F0 | .FA | .FX | .FY | .FAX | .FAY | .FAXY | .FXY => false

/-- Whether a format uses field `X` (R45). -/
def Format.usesX : Format → Bool
  | .FX | .FAX | .FAXY | .FXY => true
  | .F0 | .FA | .FAB | .FY | .FAY => false

/-- Whether a format uses field `Y` (R45). -/
def Format.usesY : Format → Bool
  | .FY | .FAY | .FAXY | .FXY => true
  | .F0 | .FA | .FAB | .FX | .FAX => false

/-! ### The fields of a command word (R43) -/

/-- `OPC = w[63:56]`. -/
def opcOf (w : Word) : Byte := w.extractLsb' 56 8

/-- `A = w[55:48]`. -/
def aOf (w : Word) : Byte := w.extractLsb' 48 8

/-- `B = w[47:40]`. -/
def bOf (w : Word) : Byte := w.extractLsb' 40 8

/-- `R = w[39:32]`, reserved. -/
def rOf (w : Word) : Byte := w.extractLsb' 32 8

/-- `X = w[31:16]`. -/
def xOf (w : Word) : Half := w.extractLsb' 16 16

/-- `Y = w[15:0]`. -/
def yOf (w : Word) : Half := w.extractLsb' 0 16

/-! ### The decoder (R46, R47) -/

/-- Why a word is illegal: the three grounds of R47. The block answers all of them with the one status `ILLEGAL_OP`;
that a word with several grounds gets the first one here is the model's naming only (log entry 11). -/
inductive DecodeReject where
  /-- R47 ground 1: `OPC` is none of the 20 values. -/
  | unassignedOpcode
  /-- R47 ground 2: `R` is not 0. -/
  | reservedNonzero
  /-- R47 ground 3: a field the format does not use is not 0. -/
  | unusedFieldNonzero
  deriving DecidableEq, Repr

/-- The operation with a given `OPC`, if any (R45). -/
def opOfOpc (opc : Byte) : Option Op := Op.all.find? (fun op => op.opc == opc)

/-- Every field that the format does not use is 0 (R46). -/
def unusedFieldsZero (f : Format) (w : Word) : Bool :=
  (f.usesA || aOf w == 0) && (f.usesB || bOf w == 0) && (f.usesX || xOf w == 0) && (f.usesY || yOf w == 0)

/-- The instruction of an operation with the given field values (R45, column "operands"). -/
def Op.build (a b : Byte) (x y : Half) : Op → Instr
  | .pushPay => .pushPay a
  | .encode => .encode a b
  | .pushRx => .pushRx a
  | .decode => .decode
  | .encGain => .encGain x
  | .decGain => .decGain a
  | .encQ => .encQ y
  | .decQ => .decQ a
  | .setBand => .setBand a x y
  | .setBandGain => .setBandGain a x
  | .setBandQ => .setBandQ a y
  | .readBand => .readBand a
  | .stagePreset => .stagePreset x y
  | .applyPreset => .applyPreset
  | .resetEq => .resetEq
  | .eqPayload => .eqPayload
  | .buildSelectEq => .buildSelectEq a
  | .buildCustomEq => .buildCustomEq
  | .buildDevinfoReq => .buildDevinfoReq
  | .clear => .clear

/-- `decode_word` (R46): total on all 2^64 words, each one operation or illegal (R47). -/
def decode (w : Word) : Except DecodeReject Instr :=
  match opOfOpc (opcOf w) with
  | none => .error .unassignedOpcode
  | some op =>
    if rOf w ≠ 0 then .error .reservedNonzero
    else if unusedFieldsZero op.format w then .ok (op.build (aOf w) (bOf w) (xOf w) (yOf w))
    else .error .unusedFieldNonzero

/-! ### The encoder (R48) -/

/-- `OPC<<56 | A<<48 | B<<40 | X<<16 | Y` with `R` = 0 (R43, R48). -/
def packWord (opc a b : Byte) (x y : Half) : Word := opc ++ a ++ b ++ (0 : Byte) ++ x ++ y

/-- The command word of an instruction (R48): a field that its format does not use is 0. -/
def encode : Instr → Word
  | .pushPay a => packWord Op.pushPay.opc a 0 0 0
  | .encode a b => packWord Op.encode.opc a b 0 0
  | .pushRx a => packWord Op.pushRx.opc a 0 0 0
  | .decode => packWord Op.decode.opc 0 0 0 0
  | .encGain x => packWord Op.encGain.opc 0 0 x 0
  | .decGain a => packWord Op.decGain.opc a 0 0 0
  | .encQ y => packWord Op.encQ.opc 0 0 0 y
  | .decQ a => packWord Op.decQ.opc a 0 0 0
  | .setBand a x y => packWord Op.setBand.opc a 0 x y
  | .setBandGain a x => packWord Op.setBandGain.opc a 0 x 0
  | .setBandQ a y => packWord Op.setBandQ.opc a 0 0 y
  | .readBand a => packWord Op.readBand.opc a 0 0 0
  | .stagePreset x y => packWord Op.stagePreset.opc 0 0 x y
  | .applyPreset => packWord Op.applyPreset.opc 0 0 0 0
  | .resetEq => packWord Op.resetEq.opc 0 0 0 0
  | .eqPayload => packWord Op.eqPayload.opc 0 0 0 0
  | .buildSelectEq a => packWord Op.buildSelectEq.opc a 0 0 0
  | .buildCustomEq => packWord Op.buildCustomEq.opc 0 0 0 0
  | .buildDevinfoReq => packWord Op.buildDevinfoReq.opc 0 0 0 0
  | .clear => packWord Op.clear.opc 0 0 0 0

/-! ### The words of spec/opcode_table.json -/

/-- The command word whose bits are `w`, of which the table gives `nbits` (all rows: 64); the bits above are 0. -/
def tableWord (nbits w : Nat) : Word := BitVec.ofNat 64 (w % 2 ^ nbits)

/-- The instruction the decoder reads from the word whose bits are `w`; none where it rejects it, and none for bits that
do not fit a command word (all have the same length, R43). -/
def decodeTableWord (nbits w : Nat) : Option Instr :=
  if w % 2 ^ nbits < 2 ^ 64 then (decode (tableWord nbits w)).toOption else none

/-! ### Operand literals of the assembler (R48) -/

/-- The integer a literal writes. -/
def Literal.value : Literal → Int
  | .dec v => v
  | .hex v => v

/-- "A and B take an integer 0..255, decimal or `0x` hex" (R48). -/
def Literal.isByte (l : Literal) : Bool := decide (0 ≤ l.value) && decide (l.value ≤ 255)

/-- "X and Y take a signed decimal integer in hundredths, -32768..32767" (R48). -/
def Literal.isHundredths : Literal → Bool
  | .dec v => decide (-32768 ≤ v) && decide (v ≤ 32767)
  | .hex _ => false

/-- A 64-bit word "written in `0x` hex" (R48). -/
def Literal.isWord : Literal → Bool
  | .dec _ => false
  | .hex v => decide (v < 2 ^ 64)

/-- An operand of `A` or `B` as a field value. -/
def Literal.toByte (l : Literal) : Byte := BitVec.ofInt 8 l.value

/-- An operand of `X` or `Y` as a field value, `v mod 2^16` (R48). -/
def Literal.toHalf (l : Literal) : Half := BitVec.ofInt 16 l.value

/-- A `.word` operand as a command word. -/
def Literal.toWord (l : Literal) : Word := BitVec.ofInt 64 l.value

end Sys2Proof
end

