-- ==== Sys2Proof/Config.lean ====
section
/-! DEFINITION. The block's parameters (spec 00_scope.md R6), the constants of the QXW protocol
(30_encoding.md R39, R40) and the two constant tables (10_state.md R15; 45_frame_builders.md R83). -/

namespace Sys2Proof

/-- The tie rule of the gain and Q rounding, `ROUND_MODE` (R6, R8). -/
inductive RoundMode where
  | halfAway
  | halfEven
  deriving DecidableEq, Repr

/-- The four device presets in the order of R83. -/
inductive Preset where
  | main
  | bassBoost
  | flat
  | studio
  deriving DecidableEq, Repr

namespace Config

/-- `ROUND_MODE` of this hardware (R6). DESIGN CHOICE (the spec's D8), log entry 5: the conversions take the mode as an
argument, and only the meanings of operations read this value. -/
abbrev roundMode : RoundMode := .halfAway

/-- `NBANDS` (R6). -/
abbrev nBands : Nat := 8

/-- `PAY_MAX` (R6): largest outbound payload, bytes. -/
abbrev payMax : Nat := 255

/-- `TX_MAX` (R6): largest outbound frame, bytes. -/
abbrev txMax : Nat := 261

/-- `RX_MAX` (R6): capacity of the inbound buffer, bytes. DESIGN CHOICE (the spec's D11), log entry 6. -/
abbrev rxMax : Nat := 261

/-- `NAME_MAX` (R6): longest device name, bytes. -/
abbrev nameMax : Nat := 31

/-- The magic prefix "QXW" (R39). -/
abbrev magic0 : Byte := 0x51
abbrev magic1 : Byte := 0x58
abbrev magic2 : Byte := 0x57

/-- The command codes of R40. -/
abbrev cmdSelectEq : Byte := 0x10
abbrev cmdCustomEq : Byte := 0x20
abbrev cmdDeviceInfo : Byte := 0x27

/-- The type codes of R40. -/
abbrev typeRequest : Byte := 0x01
abbrev typeNotify : Byte := 0x03

/-- Byte 4 of a DeviceInfo response (R40). -/
abbrev subCodeDeviceInfo : Byte := 0x02

/-- The default gain code, 0 dB, and the default Q code, Q = 0.7 (10_state.md R13). -/
abbrev defaultGain : Byte := 120
abbrev defaultQ : Byte := 7

/-- The centre frequency of each band in Hz (R15). It is a constant that no operation reads. -/
def bandCentreHz : List Nat := [60, 100, 230, 500, 1100, 2400, 5400, 12000]

/-- The number of each preset (R83). -/
def presetNumber : Preset → Byte
  | .main => 1
  | .bassBoost => 2
  | .flat => 3
  | .studio => 4

end Config

end Sys2Proof
end

