-- ==== Sys2Proof/Machine/State.lean ====
section
/-! DEFINITION. The block's state (10_state.md R13), its ports (R22 to R25) and the state after reset (R13, R100). -/

namespace Sys2Proof.Machine

/-- One entry of the band register file: a gain code and a Q code (R14). -/
structure BandCode where
  g : Byte
  q : Byte
  deriving DecidableEq, Repr

/-- A staged preset pair as presented, not yet encoded (R18): two i16 values in hundredths. -/
structure PresetPair where
  gain : Half
  q : Half
  deriving DecidableEq, Repr

/-- The status codes of R23. Codes 5, 6 and 7 are never produced and have no name here. -/
inductive Status where
  | ok
  | argErr
  | rangeErr
  | illegalOp
  | rxOverflow
  deriving DecidableEq, Repr

/-- The event kinds of R25. Kinds 6 and 7 are never produced and have no name here. -/
inductive EvtKind where
  | none
  | presetConfirmed
  | customEqConfirmed
  | deviceInfo
  | unrecognized
  | formatError
  deriving DecidableEq, Repr

/-- The raw-frame view of a notification: `raw_ok`, `raw_cmd`, `raw_type`, `raw_len`, `raw_payload` of R25 (R55). -/
structure RawView where
  ok : Bool
  cmd : Byte
  type : Byte
  len : Byte
  payload : List Byte
  deriving DecidableEq, Repr

/-- The `evt` record of R25. -/
structure Evt where
  kind : EvtKind
  codeValid : Bool
  code : Byte
  battL : Byte
  battR : Byte
  nameLen : BitVec 5
  name : Vector Byte 31
  raw : RawView
  deriving DecidableEq, Repr

/-- The response of one operation: the ports `status`, `res`, `evt` and `out` (R22 to R25). -/
structure Response where
  status : Status
  res : Half
  evt : Evt
  out : List Byte
  deriving DecidableEq, Repr

/-- What the host may do to the block (R26): present a command word, or apply `rst` between operations. -/
inductive HostInput where
  | command (w : Word)
  | rst
  deriving DecidableEq, Repr

/-- The block. The first seven fields are its whole architectural state (R13). `inputs` and `resp` stand for its ports
(R22), and no operation reads them: `inputs` is what the host is going to present, oldest first (log entry 1), and
`resp` the response of the last operation, none when there was none since reset (log entry 3). -/
structure State where
  band : Vector BandCode 8
  pay : List Byte
  payOvf : Bool
  rx : List Byte
  rxOvf : Bool
  ps : List PresetPair
  psOvf : Bool
  inputs : List HostInput
  resp : Option Response
  deriving DecidableEq, Repr

/-- The block has no fault: "It has no traps" (60_exceptions.md R91), and every error is a status of a completed
operation (R92, R97). So this type has no constructor, and no step can end in a fault (log entry 8; DEDUCED). -/
inductive Fault where
  deriving DecidableEq, Repr

/-- Why the model would refuse. -/
inductive Refusal where
  /-- Raised by no arm of `exec`: every operation has its meaning. Where it stood it would be safe, a stop where the
  hardware goes on. -/
  | notModelled (mnemonic : String)
  deriving DecidableEq, Repr

/-- The outcome of an operation or a step. -/
abbrev Result := Host.Outcome State Fault Refusal

/-- The state after reset (R13, R100): every band (120, 7), the staging buffers empty, the flags 0, no response.
No input is presented (log entries 1 and 4). -/
def State.reset : State where
  band := Vector.replicate 8 ⟨Config.defaultGain, Config.defaultQ⟩
  pay := []
  payOvf := false
  rx := []
  rxOvf := false
  ps := []
  psOvf := false
  inputs := []
  resp := none

end Sys2Proof.Machine
end

