-- ==== Sys2Proof/Machine/Flags.lean ====
section
/-! DEFINITION. The block's only flags, `pay_ovf`, `rx_ovf` and `ps_ovf` (10_state.md R19): each is set by the refused push
of its own buffer and cleared with that buffer. -/

namespace Sys2Proof.Machine

/-- A push to a full `pay` was refused (R16). -/
def setPayOvf (s : State) : State := { s with payOvf := true }

/-- A push to a full `rx` was refused (R17). -/
def setRxOvf (s : State) : State := { s with rxOvf := true }

/-- A ninth pair was refused (R18). -/
def setPsOvf (s : State) : State := { s with psOvf := true }

/-- `S.pay <- []; S.pay_ovf <- 0`. -/
def dropPay (s : State) : State := { s with pay := [], payOvf := false }

/-- `S.rx <- []; S.rx_ovf <- 0`. -/
def dropRx (s : State) : State := { s with rx := [], rxOvf := false }

/-- `S.ps <- []; S.ps_ovf <- 0`. -/
def dropPs (s : State) : State := { s with ps := [], psOvf := false }

end Sys2Proof.Machine
end

