-- ==== Sys2Proof/Machine/Operands.lean ====
section
/-! DEFINITION. Operand assembly (30_encoding.md R44) and the two range-checked operands: the band index
(43_eqstate.md) and the preset number (45_frame_builders.md R84). -/

namespace Sys2Proof.Machine

/-- `X = sext(w[31:16])`, `Y = sext(w[15:0])`: a signed value in hundredths (R44). -/
abbrev hundredths (v : Half) : Int := v.toInt

/-- A band index is legal when `A <= 7` (R67 to R70). `A = zext(w[55:48])` is an unsigned byte (R44). -/
def bandIndex (a : Byte) : Option (Fin 8) :=
  if h : a.toNat < 8 then some ⟨a.toNat, h⟩ else none

/-- A preset number is legal when it is in 1..4 (R84). -/
def isPresetNumber (a : Byte) : Bool := decide (1 ≤ a.toNat) && decide (a.toNat ≤ 4)

end Sys2Proof.Machine
end

