-- ==== Sys2Proof/Machine/Ops.lean ====
section
/-! DEFINITION. The shared operations: responding (00_scope.md R7; 10_state.md R23, R24, R25), reporting an error
(60_exceptions.md R91), pushing to a staging buffer, building a frame (30_encoding.md R39), reset (R100), an illegal
word (46_control.md R88), and taking the next host input. -/

namespace Sys2Proof.Machine

/-! ### Codes on the ports -/

/-- The status code (R23). -/
def Status.code : Status → BitVec 3
  | .ok => 0
  | .argErr => 1
  | .rangeErr => 2
  | .illegalOp => 3
  | .rxOverflow => 4

/-- The event kind code (R25). -/
def EvtKind.code : EvtKind → BitVec 3
  | .none => 0
  | .presetConfirmed => 1
  | .customEqConfirmed => 2
  | .deviceInfo => 3
  | .unrecognized => 4
  | .formatError => 5

/-- The beats of the `out` port (R22): byte 0 first, each with the last-byte marker. -/
def outBeats : List Byte → List (Byte × Bool)
  | [] => []
  | [b] => [(b, true)]
  | b :: c :: bs => (b, false) :: outBeats (c :: bs)

/-! ### Events -/

/-- `raw_ok = 0` and every other raw field zero or empty (R25, R55). -/
def noRaw : RawView := ⟨false, 0, 0, 0, []⟩

/-- A name padded with 0 to 31 bytes (R25, R54). -/
def padName (bytes : List Byte) : Vector Byte 31 :=
  ⟨((bytes ++ List.replicate 31 0).take 31).toArray, by simp⟩

/-- An event of the given kind and code, with every field that belongs to another kind zero or empty (R25). -/
def plainEvt (kind : EvtKind) (codeValid : Bool) (code : Byte) : Evt where
  kind := kind
  codeValid := codeValid
  code := code
  battL := 0
  battR := 0
  nameLen := 0
  name := padName []
  raw := noRaw

/-- `evt.kind = NONE` with every other field zero or empty (R25): the event of every operation but DECODE. -/
def noEvt : Evt := plainEvt .none false 0

/-- `UNRECOGNIZED` with `code_valid = 0` and every other field 0 (R53, R54). -/
def unrecognizedEvt : Evt := plainEvt .unrecognized false 0

/-! ### Responding -/

/-- The response of an operation, whole: `status`, `res`, `evt` and OUT (R12, R23, R24, R25). -/
def respond (status : Status) (res : Half) (evt : Evt) (out : List Byte) (s : State) : State :=
  { s with resp := some ⟨status, res, evt, out⟩ }

/-- `respond(OK, 0)`. -/
def done (s : State) : State := respond .ok 0 noEvt [] s

/-- `respond(OK, res)`. -/
def doneRes (res : Half) (s : State) : State := respond .ok res noEvt [] s

/-- `emit(out); respond(OK, 0)`. -/
def doneOut (out : List Byte) (s : State) : State := respond .ok 0 noEvt out s

/-- `raise E`: "The spec's exception is an error status, not a trap" (R7, R91). `res` is 0, OUT empty, `evt` NONE. -/
def raise (e : Status) (s : State) : State := respond e 0 noEvt [] s

/-! ### Staging and frames -/

/-- Append to a staging buffer, refused when it already holds its capacity (R50, R52, R71). The capacity is an argument, so
that `RX_MAX` may be any (R6). -/
def stage {α : Type} (capacity : Nat) (buf : List α) (x : α) : Option (List α) :=
  if buf.length = capacity then none else some (buf ++ [x])

/-- The frame of R39: header, command, type, payload length, payload. The length byte is `len(payload)` for a payload of
at most 255 bytes, which is every payload a run can stage (log entry 12). -/
def frame (command type : Byte) (payload : List Byte) : List Byte :=
  [Config.magic0, Config.magic1, Config.magic2, command, type, BitVec.ofNat 8 payload.length] ++ payload

/-! ### Host inputs, reset, illegal words -/

/-- The host's next input, and the block with that input taken (R10, R11; log entry 1). -/
def takeInput (s : State) : Option (HostInput × State) :=
  match s.inputs with
  | [] => none
  | i :: rest => some (i, { s with inputs := rest })

/-- Nothing is presented: "The block starts nothing on its own" (R10), so nothing changes (log entry 2). -/
def idle (s : State) : State := s

/-- `rst` (R100): every state field to its reset value; no response, no OUT and no event. What the host presents next is the
host's and stays. -/
def hardReset (s : State) : State := { State.reset with inputs := s.inputs }

/-- An illegal command word (R47, R88): the response `ILLEGAL_OP`, and no state field changes. -/
def illegalWord (s : State) : State := raise .illegalOp s

end Sys2Proof.Machine
end

