-- ==== Sys2Proof/Machine/GainQ.lean ====
section
/-! DEFINITION. GainQParam (42_gainq.md): the rounding of 00_scope.md R8, the four conversions R58 to R61 and their
operations R62 to R65. The conversions take `ROUND_MODE` as an argument (R6). -/

namespace Sys2Proof.Machine

/-- `clamp(v, lo, hi) = min(hi, max(lo, v))` (R7). -/
def clamp (v lo hi : Int) : Int := min hi (max lo v)

/-- The rounded magnitude `m` of R8, from `abs(c)`. -/
def roundMagnitude (mode : RoundMode) (a : Nat) : Nat :=
  match mode with
  | .halfAway => a / 10 + (if 5 ≤ a % 10 then 1 else 0)
  | .halfEven => a / 10 + (if 5 < a % 10 ∨ (a % 10 = 5 ∧ a / 10 % 2 = 1) then 1 else 0)

/-- `round10(c) = sign(c) * m` (R8). -/
def round10 (mode : RoundMode) (c : Int) : Int :=
  if c < 0 then -(roundMagnitude mode c.natAbs : Int) else (roundMagnitude mode c.natAbs : Int)

/-- `encodeGain(c) = clamp(round10(c) + 120, 0, 255)` (R58). -/
def encodeGain (mode : RoundMode) (c : Int) : Byte := BitVec.ofInt 8 (clamp (round10 mode c + 120) 0 255)

/-- `decodeGain(b) = (b - 120) * 10` (R59), in hundredths of a dB. -/
def decodeGain (b : Byte) : Int := ((b.toNat : Int) - 120) * 10

/-- `encodeQ(c) = clamp(round10(c), 0, 255)` (R60). -/
def encodeQ (mode : RoundMode) (c : Int) : Byte := BitVec.ofInt 8 (clamp (round10 mode c) 0 255)

/-- `decodeQ(b) = b * 10` (R61), in hundredths. -/
def decodeQ (b : Byte) : Nat := b.toNat * 10

/-- ENC_GAIN (R62): `respond(OK, zext_16(encodeGain(X)))`. -/
def execEncGain (gain : Half) (s : State) : Result :=
  .next (doneRes ((encodeGain Config.roundMode (hundredths gain)).zeroExtend 16) s)

/-- DEC_GAIN (R63): `respond(OK, decodeGain(A) mod 2^16)`. -/
def execDecGain (code : Byte) (s : State) : Result :=
  .next (doneRes (BitVec.ofInt 16 (decodeGain code)) s)

/-- ENC_Q (R64): `respond(OK, zext_16(encodeQ(Y)))`. -/
def execEncQ (q : Half) (s : State) : Result :=
  .next (doneRes ((encodeQ Config.roundMode (hundredths q)).zeroExtend 16) s)

/-- DEC_Q (R65): `respond(OK, decodeQ(A))`. -/
def execDecQ (code : Byte) (s : State) : Result :=
  .next (doneRes (BitVec.ofNat 16 (decodeQ code)) s)

end Sys2Proof.Machine
end

