-- ==== Sys2Proof/Machine/EqState.lean ====
section
/-! DEFINITION. EqState (43_eqstate.md): the band register file, presets and the CustomEq payload. -/

namespace Sys2Proof.Machine

/-- Write one band. -/
def writeBand (i : Fin 8) (v : BandCode) (s : State) : State := { s with band := s.band.set i v }

/-- The codes of a gain and a Q operand (R67, R72). -/
def encodePair (mode : RoundMode) (p : PresetPair) : BandCode :=
  ⟨encodeGain mode (hundredths p.gain), encodeQ mode (hundredths p.q)⟩

/-- SET_BAND (R67). -/
def execSetBand (index : Byte) (gain q : Half) (s : State) : Result :=
  match bandIndex index with
  | none => .next (raise .rangeErr s)
  | some i => .next (done (writeBand i (encodePair Config.roundMode ⟨gain, q⟩) s))

/-- SET_BAND_GAIN (R68): the gain field only. -/
def execSetBandGain (index : Byte) (gain : Half) (s : State) : Result :=
  match bandIndex index with
  | none => .next (raise .rangeErr s)
  | some i => .next (done (writeBand i { s.band[i] with g := encodeGain Config.roundMode (hundredths gain) } s))

/-- SET_BAND_Q (R69): the Q field only. -/
def execSetBandQ (index : Byte) (q : Half) (s : State) : Result :=
  match bandIndex index with
  | none => .next (raise .rangeErr s)
  | some i => .next (done (writeBand i { s.band[i] with q := encodeQ Config.roundMode (hundredths q) } s))

/-- `g * 256 + q` (R70). -/
def bandWord (v : BandCode) : Half := BitVec.ofNat 16 (v.g.toNat * 256 + v.q.toNat)

/-- READ_BAND (R70). -/
def execReadBand (index : Byte) (s : State) : Result :=
  match bandIndex index with
  | none => .next (raise .rangeErr s)
  | some i => .next (doneRes (bandWord s.band[i]) s)

/-- STAGE_PRESET (R71). -/
def execStagePreset (gain q : Half) (s : State) : Result :=
  match stage Config.nBands s.ps ⟨gain, q⟩ with
  | none => .next (raise .argErr (setPsOvf s))
  | some buf => .next (done { s with ps := buf })

/-- The band register file that the staged pairs encode to, pair `i` to band `i`, when there are exactly 8 (R72). -/
def presetBands (mode : RoundMode) (ps : List PresetPair) : Option (Vector BandCode 8) :=
  if h : ps.length = Config.nBands then some ⟨(ps.map (encodePair mode)).toArray, by simpa using h⟩ else none

/-- APPLY_PRESET (R72): all 8 bands in one write, or none; the staged pairs are consumed either way. -/
def execApplyPreset (s : State) : Result :=
  if s.psOvf then .next (raise .argErr (dropPs s))
  else
    match presetBands Config.roundMode s.ps with
    | none => .next (raise .argErr (dropPs s))
    | some bands => .next (done (dropPs { s with band := bands }))

/-- All bands at the default (120, 7) (R73). -/
def defaultBands : Vector BandCode 8 := Vector.replicate 8 ⟨Config.defaultGain, Config.defaultQ⟩

/-- RESET_EQ (R73). -/
def execResetEq (s : State) : Result := .next (done { s with band := defaultBands })

/-- `customEqPayload(S)` (R74): for each band in index order, the index, the gain code and the Q code. -/
def customEqPayload (band : Vector BandCode 8) : List Byte :=
  band.toList.zipIdx.flatMap (fun entry => [BitVec.ofNat 8 entry.2, entry.1.g, entry.1.q])

/-- EQ_PAYLOAD (R75). -/
def execEqPayload (s : State) : Result := .next (doneOut (customEqPayload s.band) s)

end Sys2Proof.Machine
end

