-- ==== Sys2Proof/Machine/Builders.lean ====
section
/-! DEFINITION. The command frame builders (45_frame_builders.md). None of them reads or writes `pay`. -/

namespace Sys2Proof.Machine

/-- BUILD_SELECT_EQ (R84): `51 58 57 10 01 01 A`. -/
def execBuildSelectEq (preset : Byte) (s : State) : Result :=
  if isPresetNumber preset then .next (doneOut (frame Config.cmdSelectEq Config.typeRequest [preset]) s)
  else .next (raise .rangeErr s)

/-- BUILD_CUSTOM_EQ (R85): `51 58 57 20 03 18` and the payload of R74. -/
def execBuildCustomEq (s : State) : Result :=
  .next (doneOut (frame Config.cmdCustomEq Config.typeNotify (customEqPayload s.band)) s)

/-- BUILD_DEVINFO_REQ (R86): `51 58 57 27 01 00`. -/
def execBuildDevinfoReq (s : State) : Result :=
  .next (doneOut (frame Config.cmdDeviceInfo Config.typeRequest []) s)

end Sys2Proof.Machine
end

