-- ==== Sys2Proof/Machine/DevInfo.lean ====
section
/-! DEFINITION. DeviceInfoParser (44_devinfo.md): the payload stage of DECODE. -/

namespace Sys2Proof.Machine

/-- Printable ASCII, `0x20..0x7E` inclusive (R79). -/
def printable (b : Byte) : Bool := decide (0x20 ≤ b.toNat) && decide (b.toNat ≤ 0x7E)

/-- The candidate at index `i` of the payload, if R79 accepts it: a length prefix `k` with `0 < k < 32` whose `k` bytes lie in
the payload and are printable. The answer is those bytes. -/
def nameCandidate (p : List Byte) (i : Nat) : Option (List Byte) :=
  match p[i]? with
  | none => none
  | some prefixByte =>
    let k := prefixByte.toNat
    let run := (p.drop (i + 1)).take k
    if 0 < k ∧ k < 32 ∧ i + 1 + k ≤ p.length ∧ run.all printable = true then some run else none

/-- The scan of R79 over the `n` indices `5 + (n - 1)` down to `5`: the first match in descending order. -/
def nameScanDown (p : List Byte) : Nat → List Byte
  | 0 => []
  | n + 1 =>
    match nameCandidate p (5 + n) with
    | some name => name
    | none => nameScanDown p n

/-- `name_scan(p)` (R79): from `len(p) - 1` down to 5. -/
def nameScan (p : List Byte) : List Byte := nameScanDown p (p.length - 5)

/-- What `devinfo_parse` gives when it succeeds (R76). -/
structure DeviceInfo where
  batteryLeft : Byte
  batteryRight : Byte
  name : List Byte
  deriving DecidableEq, Repr

/-- `devinfo_parse(p)` (R76, R77, R78): none is the source's FormatError, `len(p) < 5`. -/
def devinfoParse (p : List Byte) : Option DeviceInfo :=
  match p with
  | _ :: _ :: left :: right :: _ :: _ => some ⟨left, right, nameScan p⟩
  | _ => none

end Sys2Proof.Machine
end

