-- ==== Sys2Proof/Machine/Codec.lean ====
section
/-! DEFINITION. PacketCodec (41_codec.md): PUSH_PAY, ENCODE, PUSH_RX and DECODE. -/

namespace Sys2Proof.Machine

/-- PUSH_PAY (R50). -/
def execPushPay (data : Byte) (s : State) : Result :=
  match stage Config.payMax s.pay data with
  | none => .next (raise .argErr (setPayOvf s))
  | some buf => .next (done { s with pay := buf })

/-- ENCODE (R51). -/
def execEncode (command type : Byte) (s : State) : Result :=
  if s.payOvf then .next (raise .argErr (dropPay s))
  else .next (doneOut (frame command type s.pay) (dropPay s))

/-- PUSH_RX (R52). -/
def execPushRx (data : Byte) (s : State) : Result :=
  match stage Config.rxMax s.rx data with
  | none => .next (raise .rxOverflow (setRxOvf s))
  | some buf => .next (done { s with rx := buf })

/-- `DEVICE_INFO` with the parsed battery bytes and name (R54). -/
def deviceInfoEvt (d : DeviceInfo) : Evt :=
  { plainEvt .deviceInfo true Config.cmdDeviceInfo with
    battL := d.batteryLeft
    battR := d.batteryRight
    nameLen := BitVec.ofNat 5 d.name.length
    name := padName d.name }

/-- `classify(b)` by command code, for a notification `51 58 57 c b4 p...` of at least 5 bytes (R54). -/
def classifyCode (c b4 : Byte) (p : List Byte) : Evt :=
  if c = Config.cmdSelectEq then plainEvt .presetConfirmed true Config.cmdSelectEq
  else if c = Config.cmdCustomEq then plainEvt .customEqConfirmed true Config.cmdCustomEq
  else if c = Config.cmdDeviceInfo then
    if b4 ≠ Config.subCodeDeviceInfo then plainEvt .unrecognized true Config.cmdDeviceInfo
    else
      match devinfoParse p with
      | none => plainEvt .formatError true Config.cmdDeviceInfo
      | some d => deviceInfoEvt d
  else plainEvt .unrecognized true c

/-- The three bytes of the magic prefix (R39). -/
def isMagic (b0 b1 b2 : Byte) : Bool := b0 == Config.magic0 && b1 == Config.magic1 && b2 == Config.magic2

/-- `classify(b)` (R54). Its raw fields are those of no raw view; DECODE fills them (R53). -/
def classify (b : List Byte) : Evt :=
  match b with
  | b0 :: b1 :: b2 :: c :: b4 :: p => if isMagic b0 b1 b2 then classifyCode c b4 p else unrecognizedEvt
  | _ => unrecognizedEvt

/-- `raw_view(b)` (R55): `n == 6 + b[5]` says that the bytes from index 6 on are as many as byte 5 tells. -/
def rawView (b : List Byte) : RawView :=
  match b with
  | b0 :: b1 :: b2 :: cmd :: type :: len :: payload =>
    if isMagic b0 b1 b2 ∧ payload.length = len.toNat then ⟨true, cmd, type, len, payload⟩ else noRaw
  | _ => noRaw

/-- The event of a notification that did not overflow (R53). -/
def notificationEvt (b : List Byte) : Evt := { classify b with raw := rawView b }

/-- DECODE (R53). -/
def execDecode (s : State) : Result :=
  if s.rxOvf then .next (respond .rxOverflow 0 unrecognizedEvt [] (dropRx s))
  else .next (respond .ok 0 (notificationEvt s.rx) [] (dropRx s))

end Sys2Proof.Machine
end

