-- ==== Sys2Proof/Machine/Control.lean ====
section
/-! DEFINITION. The control operation CLEAR (46_control.md R87). -/

namespace Sys2Proof.Machine

/-- CLEAR (R87): every staging buffer and its flag; `band` stays. -/
def execClear (s : State) : Result := .next (done (dropPs (dropRx (dropPay s))))

end Sys2Proof.Machine
end

