-- ==== Sys2Proof/Machine/Dispatch.lean ====
section
/-! DEFINITION. `exec`: `perform` of 10_state.md R27, one arm per operation, each the meaning its rule gives. -/

namespace Sys2Proof.Machine

def exec (i : Instr) (s : State) : Host.Outcome State Fault Refusal :=
  match i with
  | .pushPay data => Sys2Proof.Machine.execPushPay data s
  | .encode command type => Sys2Proof.Machine.execEncode command type s
  | .pushRx data => Sys2Proof.Machine.execPushRx data s
  | .decode => Sys2Proof.Machine.execDecode s
  | .encGain gain => Sys2Proof.Machine.execEncGain gain s
  | .decGain code => Sys2Proof.Machine.execDecGain code s
  | .encQ q => Sys2Proof.Machine.execEncQ q s
  | .decQ code => Sys2Proof.Machine.execDecQ code s
  | .setBand index gain q => Sys2Proof.Machine.execSetBand index gain q s
  | .setBandGain index gain => Sys2Proof.Machine.execSetBandGain index gain s
  | .setBandQ index q => Sys2Proof.Machine.execSetBandQ index q s
  | .readBand index => Sys2Proof.Machine.execReadBand index s
  | .stagePreset gain q => Sys2Proof.Machine.execStagePreset gain q s
  | .applyPreset => Sys2Proof.Machine.execApplyPreset s
  | .resetEq => Sys2Proof.Machine.execResetEq s
  | .eqPayload => Sys2Proof.Machine.execEqPayload s
  | .buildSelectEq preset => Sys2Proof.Machine.execBuildSelectEq preset s
  | .buildCustomEq => Sys2Proof.Machine.execBuildCustomEq s
  | .buildDevinfoReq => Sys2Proof.Machine.execBuildDevinfoReq s
  | .clear => Sys2Proof.Machine.execClear s

end Sys2Proof.Machine
end

