-- ==== Sys2Proof/Machine/Step.lean ====
section
/-! DEFINITION. The step (10_state.md R27): the block takes the host's next input and performs it whole. -/

namespace Sys2Proof.Machine

/-- `step(S, w)` of R27: decode the word and perform its operation, or answer `ILLEGAL_OP`. -/
def stepWord (w : Word) (s : State) : Result :=
  match decode w with
  | .error _ => .next (illegalWord s)
  | .ok i => exec i s

/-- One step: the oldest host input is performed (R10, R11); with none presented the block idles (log entry 2). -/
def step (s : State) : Host.Outcome State Fault Refusal :=
  match takeInput s with
  | none => .next (idle s)
  | some (.rst, t) => .next (hardReset t)
  | some (.command w, t) => stepWord w t

/-- "Running the program folds the step of rule R27 over the list" of command words (R21). -/
def runWords : List Word → State → Result
  | [], s => .next s
  | w :: ws, s =>
    match stepWord w s with
    | .next t => runWords ws t
    | .fault f => .fault f
    | .refused r => .refused r

/-- The state in which the host presents the word whose bits are `w` next, before all else (log entry 4). -/
def State.withFetchWord (s : State) (nbits w : Nat) : State :=
  { s with inputs := .command (tableWord nbits w) :: s.inputs }

end Sys2Proof.Machine
end

