-- ==== Sys2Proof/WellFormed.lean ====
section
/-! DEFINITION. Well-formedness: which command words are legal, by the mask and match values of spec/opcode_table.json
(the second formulation of 30_encoding.md R46), and which assembler lines are (R48, R49).
A term of `Instr` needs no check: each operand has the width of its field, and R46 makes every such term one legal
operation. An out-of-range index or preset number is a legal word that the block answers with `RANGE_ERR`. -/

namespace Sys2Proof

/-- A row of spec/opcode_table.json. -/
structure OpcodeRow where
  op : Op
  mask : Word
  matchBits : Word
  deriving DecidableEq, Repr

/-- The rows of spec/opcode_table.json, in its order: packet codec and gain/Q operations, and two of the band operations. -/
def opcodeRowsLow : List OpcodeRow :=
  [
   ⟨.pushPay, 0xFF00FFFFFFFFFFFF, 0x0100000000000000⟩,
   ⟨.encode, 0xFF0000FFFFFFFFFF, 0x0200000000000000⟩,
   ⟨.pushRx, 0xFF00FFFFFFFFFFFF, 0x0300000000000000⟩,
   ⟨.decode, 0xFFFFFFFFFFFFFFFF, 0x0400000000000000⟩,
   ⟨.encGain, 0xFFFFFFFF0000FFFF, 0x1000000000000000⟩,
   ⟨.decGain, 0xFF00FFFFFFFFFFFF, 0x1100000000000000⟩,
   ⟨.encQ, 0xFFFFFFFFFFFF0000, 0x1200000000000000⟩,
   ⟨.decQ, 0xFF00FFFFFFFFFFFF, 0x1300000000000000⟩,
   ⟨.setBand, 0xFF00FFFF00000000, 0x2000000000000000⟩,
   ⟨.setBandGain, 0xFF00FFFF0000FFFF, 0x2100000000000000⟩]

/-- The remaining rows of spec/opcode_table.json, in its order. -/
def opcodeRowsHigh : List OpcodeRow :=
  [
   ⟨.setBandQ, 0xFF00FFFFFFFF0000, 0x2200000000000000⟩,
   ⟨.readBand, 0xFF00FFFFFFFFFFFF, 0x2300000000000000⟩,
   ⟨.stagePreset, 0xFFFFFFFF00000000, 0x2400000000000000⟩,
   ⟨.applyPreset, 0xFFFFFFFFFFFFFFFF, 0x2500000000000000⟩,
   ⟨.resetEq, 0xFFFFFFFFFFFFFFFF, 0x2600000000000000⟩,
   ⟨.eqPayload, 0xFFFFFFFFFFFFFFFF, 0x2700000000000000⟩,
   ⟨.buildSelectEq, 0xFF00FFFFFFFFFFFF, 0x3000000000000000⟩,
   ⟨.buildCustomEq, 0xFFFFFFFFFFFFFFFF, 0x3100000000000000⟩,
   ⟨.buildDevinfoReq, 0xFFFFFFFFFFFFFFFF, 0x3200000000000000⟩,
   ⟨.clear, 0xFFFFFFFFFFFFFFFF, 0x3F00000000000000⟩]

/-- Every row of spec/opcode_table.json. -/
def opcodeRows : List OpcodeRow := opcodeRowsLow ++ opcodeRowsHigh

/-- "a word is operation `op` exactly when `w & mask(op) == match(op)`" (R46). -/
def OpcodeRow.matchesWord (r : OpcodeRow) (w : Word) : Bool := w &&& r.mask == r.matchBits

/-- A legal command word: one that some row of the table matches (R46, R47). -/
def wordWellFormed (w : Word) : Bool := opcodeRows.any (fun r => r.matchesWord w)

/-- The literals that the format's fields take, in field order A, B, X, Y (R48): as many as the format uses fields, each
in its field's range. -/
def argsWellFormed (f : Format) (args : List Literal) : Bool :=
  match f, args with
  | .F0, [] => true
  | .FA, [a] => a.isByte
  | .FAB, [a, b] => a.isByte && b.isByte
  | .FX, [x] => x.isHundredths
  | .FY, [y] => y.isHundredths
  | .FAX, [a, x] => a.isByte && x.isHundredths
  | .FAY, [a, y] => a.isByte && y.isHundredths
  | .FAXY, [a, x, y] => a.isByte && x.isHundredths && y.isHundredths
  | .FXY, [x, y] => x.isHundredths && y.isHundredths
  | _, _ => false

/-- An assembler line that R48 or R49 allows. -/
def AsmLine.wellFormed : AsmLine → Bool
  | .op o args => argsWellFormed o.format args
  | .word w => w.isWord
  | .frame args => decide (2 ≤ args.length) && args.all Literal.isByte
  | .recv args => args.all Literal.isByte
  | .preset args => decide (args.length % 2 = 0) && args.all Literal.isHundredths

end Sys2Proof
end

