-- ==== Sys2Proof/Machine/Asm.lean ====
section
/-! DEFINITION. The assembler of 30_encoding.md part C: the expansions of the pseudo-instructions (R49), the command words
of a line (R48), and the reading of a line of text (R48; its open details: log entry 13). -/

namespace Sys2Proof.Machine

/-! ### Pseudo-instructions as operation sequences (R49) -/

/-- `FRAME c, t, b0, ..., b(n-1)`. -/
def frameOps (command type : Byte) (payload : List Byte) : List Instr :=
  payload.map Instr.pushPay ++ [.encode command type]

/-- `RECV b0, ..., b(n-1)`. -/
def recvOps (bytes : List Byte) : List Instr := bytes.map Instr.pushRx ++ [.decode]

/-- `PRESET g0, q0, g1, q1, ...`. -/
def presetOps (pairs : List PresetPair) : List Instr :=
  pairs.map (fun p => Instr.stagePreset p.gain p.q) ++ [.applyPreset]

/-! ### From a line to command words (R48) -/

/-- The operands of an operation in field order A, B, X, Y, as field values (R48). -/
def opInstr (o : Op) (args : List Literal) : Option Instr :=
  match o.format, args with
  | .F0, [] => some (o.build 0 0 0 0)
  | .FA, [a] => some (o.build a.toByte 0 0 0)
  | .FAB, [a, b] => some (o.build a.toByte b.toByte 0 0)
  | .FX, [x] => some (o.build 0 0 x.toHalf 0)
  | .FY, [y] => some (o.build 0 0 0 y.toHalf)
  | .FAX, [a, x] => some (o.build a.toByte 0 x.toHalf 0)
  | .FAY, [a, y] => some (o.build a.toByte 0 0 y.toHalf)
  | .FAXY, [a, x, y] => some (o.build a.toByte 0 x.toHalf y.toHalf)
  | .FXY, [x, y] => some (o.build 0 0 x.toHalf y.toHalf)
  | _, _ => none

/-- The pairs of a PRESET line. -/
def literalPairs : List Literal → List PresetPair
  | g :: q :: rest => ⟨g.toHalf, q.toHalf⟩ :: literalPairs rest
  | _ => []

/-- The command words that a line presents, in order; none for a line that R48 and R49 do not allow. -/
def lineWords (l : AsmLine) : Option (List Word) :=
  if l.wellFormed then
    match l with
    | .op o args => (opInstr o args).map (fun i => [encode i])
    | .word w => some [w.toWord]
    | .frame (c :: t :: bytes) => some ((frameOps c.toByte t.toByte (bytes.map Literal.toByte)).map encode)
    | .frame _ => none
    | .recv bytes => some ((recvOps (bytes.map Literal.toByte)).map encode)
    | .preset args => some ((presetOps (literalPairs args)).map encode)
  else none

/-! ### Reading a line of text (R48) -/

/-- The mnemonics of R45. -/
def opMnemonic : Op → String
  | .pushPay => "PUSH_PAY"
  | .encode => "ENCODE"
  | .pushRx => "PUSH_RX"
  | .decode => "DECODE"
  | .encGain => "ENC_GAIN"
  | .decGain => "DEC_GAIN"
  | .encQ => "ENC_Q"
  | .decQ => "DEC_Q"
  | .setBand => "SET_BAND"
  | .setBandGain => "SET_BAND_GAIN"
  | .setBandQ => "SET_BAND_Q"
  | .readBand => "READ_BAND"
  | .stagePreset => "STAGE_PRESET"
  | .applyPreset => "APPLY_PRESET"
  | .resetEq => "RESET_EQ"
  | .eqPayload => "EQ_PAYLOAD"
  | .buildSelectEq => "BUILD_SELECT_EQ"
  | .buildCustomEq => "BUILD_CUSTOM_EQ"
  | .buildDevinfoReq => "BUILD_DEVINFO_REQ"
  | .clear => "CLEAR"

/-- White space between the parts of a line. -/
def isSpace (c : Char) : Bool := c == ' ' || c == '\t'

/-- Text without the white space around it. -/
def trimSpace (l : List Char) : List Char := ((l.dropWhile isSpace).reverse.dropWhile isSpace).reverse

/-- Text split at its commas. -/
def splitCommas : List Char → List (List Char)
  | [] => [[]]
  | c :: cs =>
    match splitCommas cs with
    | [] => [[c]]
    | first :: rest => if c == ',' then [] :: first :: rest else (c :: first) :: rest

/-- The value of a digit in a base up to 16. -/
def digitValue (base : Nat) (c : Char) : Option Nat :=
  let n := c.toNat
  let v := if 48 ≤ n ∧ n ≤ 57 then some (n - 48)
    else if 65 ≤ n ∧ n ≤ 70 then some (n - 55)
    else if 97 ≤ n ∧ n ≤ 102 then some (n - 87)
    else none
  v.filter (fun d => decide (d < base))

/-- The digits of a number, most significant first, after those already read. -/
def parseDigits (base : Nat) : Nat → List Char → Option Nat
  | acc, [] => some acc
  | acc, c :: cs =>
    match digitValue base c with
    | none => none
    | some d => parseDigits base (acc * base + d) cs

/-- A number with at least one digit. -/
def parseNumber (base : Nat) : List Char → Option Nat
  | [] => none
  | c :: cs => parseDigits base 0 (c :: cs)

/-- An operand: `0x` hex, or decimal with an optional minus sign. -/
def parseLiteral : List Char → Option Literal
  | '0' :: 'x' :: ds => (parseNumber 16 ds).map Literal.hex
  | '-' :: ds => (parseNumber 10 ds).map (fun n => Literal.dec (-(n : Int)))
  | ds => (parseNumber 10 ds).map (fun n => Literal.dec n)

/-- Operands between commas. -/
def parseLiterals : List (List Char) → Option (List Literal)
  | [] => some []
  | t :: ts =>
    match parseLiteral (trimSpace t), parseLiterals ts with
    | some l, some ls => some (l :: ls)
    | _, _ => none

/-- The operands of a line: none at all, or one between each two commas. -/
def parseArgs (l : List Char) : Option (List Literal) :=
  if (trimSpace l).isEmpty then some [] else parseLiterals (splitCommas l)

/-- The line that a name and its operands write. -/
def namedLine (name : List Char) (args : List Literal) : Option AsmLine :=
  if name = ".word".toList then
    match args with
    | [w] => some (.word w)
    | _ => none
  else if name = "FRAME".toList then some (.frame args)
  else if name = "RECV".toList then some (.recv args)
  else if name = "PRESET".toList then some (.preset args)
  else (Op.all.find? (fun o => decide ((opMnemonic o).toList = name))).map (fun o => .op o args)

/-- The command words that one line of text presents: "`;` starts a comment" (R48), a line with nothing else presents no
word, and none for a line that R48 and R49 do not allow. -/
def assembleLine (text : List Char) : Option (List Word) :=
  let body := trimSpace (text.takeWhile (fun c => c != ';'))
  if body.isEmpty then some []
  else
    let name := body.takeWhile (fun c => !isSpace c)
    match parseArgs (body.dropWhile (fun c => !isSpace c)) with
    | none => none
    | some args => (namedLine name args).bind lineWords

/-- The command words of a program, line by line (R21, R48). -/
def assembleLines : List (List Char) → Option (List Word)
  | [] => some []
  | l :: ls =>
    match assembleLine l, assembleLines ls with
    | some ws, some rest => some (ws ++ rest)
    | _, _ => none

end Sys2Proof.Machine
end

