-- ==== Sys2Proof/Safety.lean ====
section
/-! DEFINITION. What the block's rules say of every state and every response, in the terms the statements use:
the legal values of 10_state.md R13, the response rules R23 to R25, and frames. -/

namespace Sys2Proof.Machine

/-- The legal lengths of the staging buffers (R13), and that a set flag means a full buffer: "`pay_ovf` is set when a push is
refused because `pay` already holds 255 bytes" (R16), and `rx`, `ps` likewise (R17, R18; R50: "once `pay_ovf` is 1, `pay`
stays at 255 bytes"). The register file has 8 entries by its type (R14). -/
abbrev State.BuffersLegal (s : State) : Prop :=
  s.pay.length ≤ 255 ∧ (s.payOvf = true → s.pay.length = 255) ∧
  s.rx.length ≤ 261 ∧ (s.rxOvf = true → s.rx.length = 261) ∧
  s.ps.length ≤ 8 ∧ (s.psOvf = true → s.ps.length = 8)

/-- The raw view of R25: with `raw_ok = 0` every field is 0 or empty, and with `raw_ok = 1` the payload has `raw_len` bytes. -/
abbrev RawView.Legal (r : RawView) : Prop :=
  (r.ok = true → r.payload.length = r.len.toNat) ∧
  (r.ok = false → r.cmd = 0 ∧ r.type = 0 ∧ r.len = 0 ∧ r.payload = [])

/-- The event record of R25: `code` is 0 unless `code_valid`; battery and name fields are 0 unless the kind is DEVICE_INFO; the
name's bytes are printable and 0 from `name_len` on (R79, R81); kind NONE has every field zero or empty. -/
abbrev Evt.Legal (e : Evt) : Prop :=
  (e.codeValid = false → e.code = 0) ∧
  (e.kind ≠ .deviceInfo → e.battL = 0 ∧ e.battR = 0 ∧ e.nameLen = 0) ∧
  (∀ i : Fin 31, (i.val < e.nameLen.toNat → 0x20 ≤ e.name[i].toNat ∧ e.name[i].toNat ≤ 0x7E) ∧
    (e.nameLen.toNat ≤ i.val → e.name[i] = 0)) ∧
  e.raw.Legal ∧
  (e.kind = .none → e.codeValid = false ∧ e.raw.ok = false)

/-- The response of R23 to R25: `res` is 0 and OUT is empty on every status other than `OK`; OUT has at most 261 bytes; the
event record is legal. -/
abbrev Response.Legal (r : Response) : Prop :=
  (r.status ≠ .ok → r.res = 0 ∧ r.out = []) ∧ r.out.length ≤ 261 ∧ r.evt.Legal

/-- The invariant of the block: legal buffers and flags, and a legal response on the ports. -/
abbrev State.Legal (s : State) : Prop :=
  s.BuffersLegal ∧ ∀ r ∈ s.resp, Response.Legal r

/-- Nothing of the architectural state (R13) differs. -/
abbrev SameState (s t : State) : Prop :=
  t.band = s.band ∧ t.pay = s.pay ∧ t.payOvf = s.payOvf ∧ t.rx = s.rx ∧ t.rxOvf = s.rxOvf ∧
  t.ps = s.ps ∧ t.psOvf = s.psOvf

/-- Nothing but the response differs: the architectural state and what the host presents later. -/
abbrev OnlyResponds (s t : State) : Prop := SameState s t ∧ t.inputs = s.inputs

/-- The response is `status`, `res`, event NONE with all fields zero, and OUT `out` (R23, R24, R25). -/
abbrev Responds (t : State) (status : Status) (res : Half) (out : List Byte) : Prop :=
  ∃ r, t.resp = some r ∧ r.status = status ∧ r.res = res ∧ r.out = out ∧
    r.evt.kind = .none ∧ r.evt.codeValid = false ∧ r.evt.code = 0 ∧ r.evt.battL = 0 ∧ r.evt.battR = 0 ∧
    r.evt.nameLen = 0 ∧ r.evt.name = Vector.replicate 31 0 ∧ r.evt.raw = ⟨false, 0, 0, 0, []⟩

/-- The response is `status` and the event `evt`, with `res` 0 and OUT empty: DECODE's form (R53). -/
abbrev Reports (t : State) (status : Status) (evt : Evt) : Prop :=
  ∃ r, t.resp = some r ∧ r.status = status ∧ r.res = 0 ∧ r.out = [] ∧ r.evt = evt

/-- The candidate at index `i` of the info payload `p` is accepted with the name `name`, in the words of R79. -/
abbrev NameAccepted (p : List Byte) (i : Nat) (name : List Byte) : Prop :=
  ∃ k : Byte, p[i]? = some k ∧ 0 < k.toNat ∧ k.toNat < 32 ∧ i + 1 + k.toNat ≤ p.length ∧
    (∀ j, i + 1 ≤ j → j < i + 1 + k.toNat → ∃ c : Byte, p[j]? = some c ∧ 0x20 ≤ c.toNat ∧ c.toNat ≤ 0x7E) ∧
    name = (p.drop (i + 1)).take k.toNat

/-- No DeviceInfo field is filled (R25). -/
abbrev NoDeviceInfo (e : Evt) : Prop :=
  e.battL = 0 ∧ e.battR = 0 ∧ e.nameLen = 0 ∧ e.name = Vector.replicate 31 0

/-- A row of the opcode map as a rule states it: every word that `mask` and `matchBits` select decodes to the instruction that
`build` makes of its fields A, B, X and Y (R43, R46). -/
abbrev WordsDecodeTo (mask matchBits : Word) (build : Byte → Byte → Half → Half → Instr) : Prop :=
  ∀ w : Word, w &&& mask = matchBits →
    decode w = .ok (build (w.extractLsb' 48 8) (w.extractLsb' 40 8) (w.extractLsb' 16 16) (w.extractLsb' 0 16))

/-- "A and B take an integer 0..255, decimal or `0x` hex" (R48): the literal `l` writes the byte value `n`. -/
abbrev ByteLiteral (l : Literal) (n : Nat) : Prop := (l = .dec n ∨ l = .hex n) ∧ n ≤ 255

/-- "X and Y take a signed decimal integer in hundredths, -32768..32767" (R48): the literal `l` writes the value `v`. -/
abbrev HundredthsLiteral (l : Literal) (v : Int) : Prop := l = .dec v ∧ -32768 ≤ v ∧ v ≤ 32767

/-- The operands that R48 lets an assembler line of each format write, "in field order A, B, X, Y, and only the fields the format
uses", with the values that the fields A, B, X and Y then have: a field that is not written is 0 (R46). -/
inductive LineOperands : Format → List Literal → Nat → Nat → Int → Int → Prop where
  | none : LineOperands .F0 [] 0 0 0 0
  | a {la : Literal} {a : Nat} : ByteLiteral la a → LineOperands .FA [la] a 0 0 0
  | ab {la lb : Literal} {a b : Nat} : ByteLiteral la a → ByteLiteral lb b → LineOperands .FAB [la, lb] a b 0 0
  | x {lx : Literal} {x : Int} : HundredthsLiteral lx x → LineOperands .FX [lx] 0 0 x 0
  | y {ly : Literal} {y : Int} : HundredthsLiteral ly y → LineOperands .FY [ly] 0 0 0 y
  | ax {la lx : Literal} {a : Nat} {x : Int} : ByteLiteral la a → HundredthsLiteral lx x →
      LineOperands .FAX [la, lx] a 0 x 0
  | ay {la ly : Literal} {a : Nat} {y : Int} : ByteLiteral la a → HundredthsLiteral ly y →
      LineOperands .FAY [la, ly] a 0 0 y
  | axy {la lx ly : Literal} {a : Nat} {x y : Int} : ByteLiteral la a → HundredthsLiteral lx x → HundredthsLiteral ly y →
      LineOperands .FAXY [la, lx, ly] a 0 x y
  | xy {lx ly : Literal} {x y : Int} : HundredthsLiteral lx x → HundredthsLiteral ly y →
      LineOperands .FXY [lx, ly] 0 0 x y

/-- The fields of a command word (R43): `R` is 0, A and B are unsigned bytes, X and Y are two's complement (R44). -/
abbrev HasFields (w : Word) (opc : Byte) (a b : Nat) (x y : Int) : Prop :=
  w.extractLsb' 56 8 = opc ∧ (w.extractLsb' 48 8).toNat = a ∧ (w.extractLsb' 40 8).toNat = b ∧ w.extractLsb' 32 8 = 0 ∧
  (w.extractLsb' 16 16).toInt = x ∧ (w.extractLsb' 0 16).toInt = y

/-- The outcome is a next state for which `p` holds. -/
abbrev NextWith (o : Result) (p : State → Prop) : Prop := ∃ t, o = .next t ∧ p t

end Sys2Proof.Machine
end

