-- ==== Sys2Proof/Certificates/Slice0/Obligations.lean ====
section
/-! DEFINITION. The statements for the provers, in the order of the spec's files. A statement of one operation says first which
words it is, by the mask and match of its rule, then its effect. `OnlyResponds u t` says that every field
of `t` but the response is that of `u`, so a statement that writes `u` as `s` with one field changed says the frame too. -/

open Sys2Proof Sys2Proof.Machine

/-! ### Reset, the step and the ports (10_state.md, 70_reset_and_hazards.md) -/

/-- R100: `rst` sets every state field to its reset value, gives no response, and the first command word after it is the
first operation, performed on that state. Two clauses are the model's choice: that no response stands as `resp = none`
(log entry 3), and that what the host presents after `rst` stays in the list `inputs` (log entry 1). -/
def Obligations.RstSetsEveryFieldToItsResetValue : Prop :=
  ∀ (s : State) (rest : List HostInput), s.inputs = .rst :: rest →
    NextWith (step s) fun t =>
      (∀ i : Fin 8, t.band[i].g = 120 ∧ t.band[i].q = 7) ∧
      t.pay = [] ∧ t.payOvf = false ∧ t.rx = [] ∧ t.rxOvf = false ∧ t.ps = [] ∧ t.psOvf = false ∧
      t.resp = none ∧ t.inputs = rest ∧
      ∀ w rest', rest = .command w :: rest' → step t = stepWord w { State.reset with inputs := rest' }

/-- The reset values of R13, and that the state after reset is legal. Its empty `inputs` is the model's choice
(log entry 4), and its empty `resp` follows R100 by log entry 3. -/
def Obligations.ResetStateIsLegal : Prop :=
  State.reset.Legal ∧
  (∀ i : Fin 8, State.reset.band[i] = ⟨120, 7⟩) ∧
  State.reset.pay = [] ∧ State.reset.payOvf = false ∧ State.reset.rx = [] ∧ State.reset.rxOvf = false ∧
  State.reset.ps = [] ∧ State.reset.psOvf = false ∧ State.reset.resp = none ∧ State.reset.inputs = []

/-- R27: when the word that the host presents next decodes to `i`, the step is `exec i` on the block with that input taken.
The queue of inputs is the model's form of the host (log entry 1). -/
def Obligations.StepRunsTheDecodedWord : Prop :=
  (∀ (s : State) (w : Word) (rest : List HostInput) (i : Instr),
    s.inputs = .command w :: rest → decode w = .ok i → step s = exec i { s with inputs := rest }) ∧
  (∀ (s : State) (nbits w : Nat) (i : Instr),
    decode (tableWord nbits w) = .ok i → step (s.withFetchWord nbits w) = exec i s)

/-- R88: an illegal word answers `ILLEGAL_OP` with `res` 0, event NONE and OUT empty, and changes no state field. -/
def Obligations.IllegalWordOnlyAnswersIllegalOp : Prop :=
  ∀ (s : State) (w : Word) (rest : List HostInput) (e : DecodeReject),
    s.inputs = .command w :: rest → decode w = .error e →
      NextWith (step s) fun t => OnlyResponds { s with inputs := rest } t ∧ Responds t .illegalOp 0 []

/-- With nothing presented the block does nothing: R10 "The block starts nothing on its own". That a step then leaves the
state as it is, is the model's choice (log entry 2). -/
def Obligations.BlockIdlesWithoutInput : Prop :=
  ∀ s : State, s.inputs = [] → step s = .next s

/-- R27 "`perform` is total", R91: every operation, in every state, ends in a next state with a response, takes no host input
and so hides none; and every step of the block ends in a next state. -/
def Obligations.EveryOperationAndStepCompletes : Prop :=
  (∀ (i : Instr) (s : State), NextWith (exec i s) fun t => t.inputs = s.inputs ∧ t.resp.isSome = true) ∧
  (∀ s : State, ∃ t, step s = .next t)

/-- The invariant of the block: from every legal state, every step gives a legal state (buffer lengths and flags of R13, R16
to R18; the response rules of R23 to R25). -/
def Obligations.StepKeepsStateLegal : Prop :=
  ∀ s t : State, s.Legal → step s = .next t → t.Legal

/-- R20: no operation reads the response of an earlier one, and none reads what the host presents later. -/
def Obligations.OperationsReadNoPort : Prop :=
  ∀ (i : Instr) (s t : State) (r : Option Response) (l : List HostInput),
    exec i s = .next t → exec i { s with resp := r, inputs := l } = .next { t with inputs := l }

/-- R21: `n` steps of the machine over `n` presented command words are the fold of R27's step over their list. -/
def Obligations.RunIsTheFoldOfTheStep : Prop :=
  ∀ (ws : List Word) (rest : List HostInput) (s : State),
    Host.Core.run core ws.length { s with inputs := ws.map .command ++ rest } = runWords ws { s with inputs := rest }

/-- R22: the `out` port delivers the OUT bytes in order, and marks exactly the last one. That an empty OUT has no beat is the
model's choice (log entry 10). -/
def Obligations.OutPortDeliversBytesWithLastMarker : Prop :=
  ∀ out : List Byte,
    (outBeats out).map Prod.fst = out ∧
    ∀ i : Nat, ∀ b : Byte × Bool, (outBeats out)[i]? = some b → (b.2 = true ↔ i + 1 = out.length)

/-- R14: `band` is written only by SET_BAND, SET_BAND_GAIN, SET_BAND_Q, APPLY_PRESET and RESET_EQ, and by `rst`. -/
def Obligations.OnlyEqOperationsAndResetWriteBand : Prop :=
  (∀ (i : Instr) (s t : State), exec i s = .next t → t.band ≠ s.band →
    i.op = .setBand ∨ i.op = .setBandGain ∨ i.op = .setBandQ ∨ i.op = .applyPreset ∨ i.op = .resetEq) ∧
  (∀ s t : State, step s = .next t → t.band ≠ s.band →
    (∃ rest, s.inputs = .rst :: rest) ∨
    ∃ w i rest, s.inputs = .command w :: rest ∧ decode w = .ok i ∧
      (i.op = .setBand ∨ i.op = .setBandGain ∨ i.op = .setBandQ ∨ i.op = .applyPreset ∨ i.op = .resetEq))

/-- R19: each flag is set only by the refused push of its own buffer, and cleared only by the operation that consumes that
buffer, by CLEAR, or by reset (the last: R100's statement). -/
def Obligations.FlagsChangeOnlyWithTheirBuffer : Prop :=
  ∀ (i : Instr) (s t : State), exec i s = .next t →
    (s.payOvf = false → t.payOvf = true → (∃ a, i = .pushPay a) ∧ s.pay.length = 255 ∧ t.pay = s.pay) ∧
    (s.payOvf = true → t.payOvf = false → ((∃ c y, i = .encode c y) ∨ i = .clear) ∧ t.pay = []) ∧
    (s.rxOvf = false → t.rxOvf = true → (∃ a, i = .pushRx a) ∧ s.rx.length = 261 ∧ t.rx = s.rx) ∧
    (s.rxOvf = true → t.rxOvf = false → (i = .decode ∨ i = .clear) ∧ t.rx = []) ∧
    (s.psOvf = false → t.psOvf = true → (∃ x y, i = .stagePreset x y) ∧ s.ps.length = 8 ∧ t.ps = s.ps) ∧
    (s.psOvf = true → t.psOvf = false → (i = .applyPreset ∨ i = .clear) ∧ t.ps = [])

/-- R35: READ_BAND, EQ_PAYLOAD, BUILD_CUSTOM_EQ and the four conversions change no state, and repeating them gives the same
result. -/
def Obligations.ReadsChangeNothingAndRepeat : Prop :=
  ∀ (i : Instr) (s : State),
    (i.op = .readBand ∨ i.op = .eqPayload ∨ i.op = .buildCustomEq ∨
      i.op = .encGain ∨ i.op = .decGain ∨ i.op = .encQ ∨ i.op = .decQ) →
    NextWith (exec i s) fun t => OnlyResponds s t ∧ exec i t = .next t

/-! ### The command word (30_encoding.md) -/

/-- Decode and encode agree on every instruction, with every operand at every value. -/
def Obligations.DecodeOfEncodeIsTheInstruction : Prop :=
  ∀ i : Instr, decode (encode i) = .ok i

/-- Every legal word is the encoding of what it decodes to: no bit of a word is dropped (R47 "exactly one operation"). -/
def Obligations.EncodeOfDecodeIsTheWord : Prop :=
  ∀ (w : Word) (i : Instr), decode w = .ok i → encode i = w

/-- R46: `decode_word` selects operation `op`, with the word's fields as operands, exactly when the row of `op` in
spec/opcode_table.json matches it by mask and match; a word that no row matches is illegal; and no two rows overlap. -/
def Obligations.DecodesToOpIffTableRowMatches : Prop :=
  ∀ w : Word,
    (∀ o : Op,
      decode w = .ok (o.build (w.extractLsb' 48 8) (w.extractLsb' 40 8) (w.extractLsb' 16 16) (w.extractLsb' 0 16)) ↔
        ∃ r ∈ opcodeRows, r.op = o ∧ w &&& r.mask = r.matchBits) ∧
    ((∀ r ∈ opcodeRows, w &&& r.mask ≠ r.matchBits) → ∃ e, decode w = .error e) ∧
    (∀ r₁ ∈ opcodeRows, ∀ r₂ ∈ opcodeRows,
      w &&& r₁.mask = r₁.matchBits → w &&& r₂.mask = r₂.matchBits → r₁ = r₂)

/-- R47: the three grounds on which a word is illegal, and that every other word is an operation. The unused fields are those of
the formats of R45. -/
def Obligations.WordIsIllegalOnExactlyThreeGrounds : Prop :=
  ∀ w : Word,
    let opc := w.extractLsb' 56 8
    let known : List Byte := [0x01, 0x02, 0x03, 0x04, 0x10, 0x11, 0x12, 0x13, 0x20, 0x21, 0x22, 0x23, 0x24, 0x25, 0x26, 0x27,
      0x30, 0x31, 0x32, 0x3F]
    let usesA : List Byte := [0x01, 0x02, 0x03, 0x11, 0x13, 0x20, 0x21, 0x22, 0x23, 0x30]
    let usesB : List Byte := [0x02]
    let usesX : List Byte := [0x10, 0x20, 0x21, 0x24]
    let usesY : List Byte := [0x12, 0x20, 0x22, 0x24]
    let illegal := opc ∉ known ∨ w.extractLsb' 32 8 ≠ 0 ∨
      (opc ∉ usesA ∧ w.extractLsb' 48 8 ≠ 0) ∨ (opc ∉ usesB ∧ w.extractLsb' 40 8 ≠ 0) ∨
      (opc ∉ usesX ∧ w.extractLsb' 16 16 ≠ 0) ∨ (opc ∉ usesY ∧ w.extractLsb' 0 16 ≠ 0)
    (illegal → ∀ s, NextWith (stepWord w s) fun t => OnlyResponds s t ∧ Responds t .illegalOp 0 []) ∧
    (¬ illegal → ∃ i, decode w = .ok i ∧ i.op.opc = opc ∧ ∀ s, stepWord w s = exec i s)

/-- Words written out from the encodings of R45 and from the examples of the rules decode to the operations they stand for. -/
def Obligations.WordsOfTheSpecDecode : Prop :=
  decode 0x0107000000000000 = .ok (.pushPay 0x07) ∧
  decode 0x0227010000000000 = .ok (.encode 0x27 0x01) ∧
  decode 0x1000000002580000 = .ok (.encGain 600) ∧
  decode 0x120000000000FF9C = .ok (.encQ (-100)) ∧
  decode 0x2000000002580046 = .ok (.setBand 0 600 70) ∧
  decode 0x24000000FAEC0046 = .ok (.stagePreset (-1300) 70) ∧
  decode 0x3004000000000000 = .ok (.buildSelectEq 4) ∧
  decode 0x3F00000000000000 = .ok .clear ∧
  decode 0x0000000000000000 = .error .unassignedOpcode ∧
  decode 0x1000000100000000 = .error .reservedNonzero ∧
  decode 0x1001000002580000 = .error .unusedFieldNonzero

/-- R48: an assembler line of an operation presents one word, whose fields are the operation's `OPC` and the values that the
line's literals write, in the field order A, B, X, Y of its format, and which decodes to that operation; a line with any other
operands presents nothing; and every instruction is written by some line. -/
def Obligations.AssemblerLinesWriteExactlyTheOperations : Prop :=
  (∀ (o : Op) (args : List Literal) (a b : Nat) (x y : Int), LineOperands o.format args a b x y →
    ∃ w i, lineWords (.op o args) = some [w] ∧ HasFields w o.opc a b x y ∧ decode w = .ok i ∧ i.op = o) ∧
  (∀ (o : Op) (args : List Literal) (ws : List Word), lineWords (.op o args) = some ws →
    ∃ a b x y, LineOperands o.format args a b x y) ∧
  (∀ i : Instr, ∃ args, lineWords (.op i.op args) = some [encode i])

/-! ### PacketCodec (41_codec.md) -/

/-- R50: PUSH_PAY. -/
def Obligations.PushPayAppendsOrRefuses : Prop :=
  WordsDecodeTo 0xFF00FFFFFFFFFFFF 0x0100000000000000 (fun a _ _ _ => .pushPay a) ∧
  ∀ (a : Byte) (s : State),
    (s.pay.length ≠ 255 → NextWith (exec (.pushPay a) s) fun t =>
      OnlyResponds { s with pay := s.pay ++ [a] } t ∧ Responds t .ok 0 []) ∧
    (s.pay.length = 255 → NextWith (exec (.pushPay a) s) fun t =>
      OnlyResponds { s with payOvf := true } t ∧ Responds t .argErr 0 [])

/-- R51: ENCODE, for every payload that can be staged (at most 255 bytes; R13). -/
def Obligations.EncodeEmitsTheFrameOrFails : Prop :=
  WordsDecodeTo 0xFF0000FFFFFFFFFF 0x0200000000000000 (fun a b _ _ => .encode a b) ∧
  ∀ (c y : Byte) (s : State), s.BuffersLegal →
    (s.payOvf = false → NextWith (exec (.encode c y) s) fun t =>
      OnlyResponds { s with pay := [] } t ∧
      ∃ n : Byte, n.toNat = s.pay.length ∧ Responds t .ok 0 ([0x51, 0x58, 0x57, c, y, n] ++ s.pay)) ∧
    (s.payOvf = true → NextWith (exec (.encode c y) s) fun t =>
      OnlyResponds { s with pay := [], payOvf := false } t ∧ Responds t .argErr 0 [])

/-- R52: PUSH_RX. -/
def Obligations.PushRxAppendsOrRefuses : Prop :=
  WordsDecodeTo 0xFF00FFFFFFFFFFFF 0x0300000000000000 (fun a _ _ _ => .pushRx a) ∧
  ∀ (a : Byte) (s : State),
    (s.rx.length ≠ 261 → NextWith (exec (.pushRx a) s) fun t =>
      OnlyResponds { s with rx := s.rx ++ [a] } t ∧ Responds t .ok 0 []) ∧
    (s.rx.length = 261 → NextWith (exec (.pushRx a) s) fun t =>
      OnlyResponds { s with rxOvf := true } t ∧ Responds t .rxOverflow 0 [])

/-- R53: DECODE empties `rx`, clears its flag, and reports the classification with the raw view, or the overflow. -/
def Obligations.DecodeReportsTheNotification : Prop :=
  WordsDecodeTo 0xFFFFFFFFFFFFFFFF 0x0400000000000000 (fun _ _ _ _ => .decode) ∧
  ∀ s : State,
    (s.rxOvf = false → NextWith (exec .decode s) fun t =>
      OnlyResponds { s with rx := [] } t ∧ Reports t .ok { classify s.rx with raw := rawView s.rx }) ∧
    (s.rxOvf = true → NextWith (exec .decode s) fun t =>
      OnlyResponds { s with rx := [], rxOvf := false } t ∧
      ∃ e : Evt, Reports t .rxOverflow e ∧ e.kind = .unrecognized ∧ e.codeValid = false ∧ e.code = 0 ∧
        NoDeviceInfo e ∧ e.raw = ⟨false, 0, 0, 0, []⟩)

/-- R54: `classify(b)`, by the bytes at their indices. -/
def Obligations.ClassificationFollowsTheBytes : Prop :=
  ∀ b : List Byte,
    let e := classify b
    (b.length < 5 ∨ b.take 3 ≠ [0x51, 0x58, 0x57] →
      e.kind = .unrecognized ∧ e.codeValid = false ∧ e.code = 0 ∧ NoDeviceInfo e) ∧
    (∀ c b4 : Byte, b.take 3 = [0x51, 0x58, 0x57] → b[3]? = some c → b[4]? = some b4 →
      e.codeValid = true ∧ e.code = c ∧
      (c = 0x10 → e.kind = .presetConfirmed ∧ NoDeviceInfo e) ∧
      (c = 0x20 → e.kind = .customEqConfirmed ∧ NoDeviceInfo e) ∧
      (c = 0x27 → b4 ≠ 0x02 → e.kind = .unrecognized ∧ NoDeviceInfo e) ∧
      (c = 0x27 → b4 = 0x02 → b.length - 5 < 5 → e.kind = .formatError ∧ NoDeviceInfo e) ∧
      (c = 0x27 → b4 = 0x02 → 5 ≤ b.length - 5 →
        e.kind = .deviceInfo ∧ b[5 + 2]? = some e.battL ∧ b[5 + 3]? = some e.battR ∧
        e.nameLen.toNat = (nameScan (b.drop 5)).length ∧
        e.name.toList = nameScan (b.drop 5) ++ List.replicate (31 - (nameScan (b.drop 5)).length) 0) ∧
      (c ≠ 0x10 → c ≠ 0x20 → c ≠ 0x27 → e.kind = .unrecognized ∧ NoDeviceInfo e))

/-- R55: `raw_view(b)`, by the bytes at their indices. -/
def Obligations.RawViewNeedsTheExactLength : Prop :=
  ∀ b : List Byte,
    (∀ cmd y len : Byte, b.take 3 = [0x51, 0x58, 0x57] → b[3]? = some cmd → b[4]? = some y → b[5]? = some len →
      b.length = 6 + len.toNat → rawView b = ⟨true, cmd, y, len, b.drop 6⟩) ∧
    (¬ (b.take 3 = [0x51, 0x58, 0x57] ∧ ∃ len : Byte, b[5]? = some len ∧ b.length = 6 + len.toNat) →
      rawView b = ⟨false, 0, 0, 0, []⟩)

/-- R49, R50, R51: FRAME from an empty staging buffer emits the frame for a payload of at most 255 bytes, and fails for exactly
the longer ones, leaving the buffer and its flag clear in both cases. -/
def Obligations.FrameSequenceEncodesExactlyShortPayloads : Prop :=
  ∀ (c y : Byte) (p : List Byte) (s : State), s.pay = [] → s.payOvf = false →
    NextWith (runWords ((frameOps c y p).map encode) s) fun t =>
      OnlyResponds s t ∧
      (p.length ≤ 255 → Responds t .ok 0 ([0x51, 0x58, 0x57, c, y, BitVec.ofNat 8 p.length] ++ p)) ∧
      (255 < p.length → Responds t .argErr 0 [])

/-- R49, R52, R53, R105: RECV from an empty inbound buffer decodes a notification of at most 261 bytes as one, and reports
`RX_OVERFLOW` for exactly the longer ones. -/
def Obligations.RecvSequenceDecodesExactlyFittingNotifications : Prop :=
  ∀ (b : List Byte) (s : State), s.rx = [] → s.rxOvf = false →
    NextWith (runWords ((recvOps b).map encode) s) fun t =>
      OnlyResponds s t ∧
      (b.length ≤ 261 → Reports t .ok { classify b with raw := rawView b }) ∧
      (261 < b.length → ∃ e : Evt, Reports t .rxOverflow e ∧ e.kind = .unrecognized ∧ e.codeValid = false)

/-- R56, the round-trip law: FRAME, then every OUT byte pushed, then DECODE reconstructs command, type and payload in the raw
view. R56 names only `rx` and `rx_ovf` of the state before; FRAME frames what `pay` already holds as well (R106), so `pay = []`
and `pay_ovf = 0` are premises here (log entry 14). -/
def Obligations.EncodedFrameDecodesToItsParts : Prop :=
  ∀ (c y : Byte) (p : List Byte) (s : State), p.length ≤ 255 →
    s.pay = [] → s.payOvf = false → s.rx = [] → s.rxOvf = false →
    NextWith (runWords ((frameOps c y p).map encode) s) fun t =>
      ∃ r, t.resp = some r ∧ r.status = .ok ∧
        NextWith (runWords ((recvOps r.out).map encode) t) fun u =>
          ∃ r', u.resp = some r' ∧ r'.status = .ok ∧ r'.evt.raw.ok = true ∧ r'.evt.raw.cmd = c ∧
            r'.evt.raw.type = y ∧ r'.evt.raw.len.toNat = p.length ∧ r'.evt.raw.payload = p ∧ SameState s u

/-- R57: a notification without the magic, or shorter than 5 bytes, is `UNRECOGNIZED` without a code and without a raw view. -/
def Obligations.NonFrameIsUnrecognized : Prop :=
  ∀ s : State, (s.rx.take 3 ≠ [0x51, 0x58, 0x57] ∨ s.rx.length < 5) →
    NextWith (exec .decode s) fun t =>
      ∃ e : Evt, Reports t (if s.rxOvf = true then .rxOverflow else .ok) e ∧
        e.kind = .unrecognized ∧ e.codeValid = false ∧ e.raw.ok = false

/-! ### GainQParam (42_gainq.md) -/

/-- R8: `round10(c)` is an integer nearest to `c / 10`, and a tie goes away from zero or to the even neighbour by the mode. -/
def Obligations.RoundingIsToNearestWithTheTieRule : Prop :=
  ∀ (m : RoundMode) (c : Int),
    |10 * round10 m c - c| ≤ 5 ∧
    (c.natAbs % 10 = 5 → m = .halfAway → 10 * |round10 m c| = |c| + 5) ∧
    (c.natAbs % 10 = 5 → m = .halfEven → round10 m c % 2 = 0)

/-- R58: `encodeGain` is the clamped sum, which stays within 3277 + 120 before the clamp, with the exact boundaries of both
modes. -/
def Obligations.EncodeGainClampsAtTheExactBoundaries : Prop :=
  ∀ (m : RoundMode) (c : Int), -32768 ≤ c → c ≤ 32767 →
    ((encodeGain m c).toNat : Int) = min 255 (max 0 (round10 m c + 120)) ∧
    |round10 m c| ≤ 3277 ∧
    ((encodeGain m c).toNat = 0 ↔ c ≤ -1195) ∧
    ((encodeGain m c).toNat = 255 ↔ (if m = .halfAway then 1345 ≤ c else 1346 ≤ c))

/-- R60: `encodeQ` is the clamped rounding, with the exact boundaries of both modes. -/
def Obligations.EncodeQClampsAtTheExactBoundaries : Prop :=
  ∀ (m : RoundMode) (c : Int), -32768 ≤ c → c ≤ 32767 →
    ((encodeQ m c).toNat : Int) = min 255 (max 0 (round10 m c)) ∧
    ((encodeQ m c).toNat = 0 ↔ (if m = .halfAway then c ≤ 4 else c ≤ 5)) ∧
    ((encodeQ m c).toNat = 255 ↔ (if m = .halfAway then 2545 ≤ c else 2546 ≤ c))

/-- R62, R64: ENC_GAIN and ENC_Q answer the code of their operand, zero-extended, and change no state. -/
def Obligations.EncGainAndEncQAnswerTheCode : Prop :=
  WordsDecodeTo 0xFFFFFFFF0000FFFF 0x1000000000000000 (fun _ _ x _ => .encGain x) ∧
  WordsDecodeTo 0xFFFFFFFFFFFF0000 0x1200000000000000 (fun _ _ _ y => .encQ y) ∧
  ∀ (v : Half) (s : State),
    (NextWith (exec (.encGain v) s) fun t =>
      OnlyResponds s t ∧ ∃ res : Half, res.toNat = (encodeGain .halfAway v.toInt).toNat ∧ Responds t .ok res []) ∧
    (NextWith (exec (.encQ v) s) fun t =>
      OnlyResponds s t ∧ ∃ res : Half, res.toNat = (encodeQ .halfAway v.toInt).toNat ∧ Responds t .ok res [])

/-- R59, R63, R61, R65: DEC_GAIN answers `(A - 120) * 10` as an i16 and DEC_Q answers `A * 10`; they change no state. -/
def Obligations.DecGainAndDecQAnswerHundredths : Prop :=
  WordsDecodeTo 0xFF00FFFFFFFFFFFF 0x1100000000000000 (fun a _ _ _ => .decGain a) ∧
  WordsDecodeTo 0xFF00FFFFFFFFFFFF 0x1300000000000000 (fun a _ _ _ => .decQ a) ∧
  ∀ (a : Byte) (s : State),
    (NextWith (exec (.decGain a) s) fun t =>
      OnlyResponds s t ∧ ∃ res : Half, res.toInt = ((a.toNat : Int) - 120) * 10 ∧ Responds t .ok res []) ∧
    (NextWith (exec (.decQ a) s) fun t =>
      OnlyResponds s t ∧ ∃ res : Half, res.toNat = a.toNat * 10 ∧ Responds t .ok res [])

/-- R66, all seven laws, for both modes. -/
def Obligations.GainAndQArithmeticLaws : Prop :=
  ∀ m : RoundMode,
    (∀ b : Byte, encodeGain m (decodeGain b) = b ∧ encodeQ m (decodeQ b : Int) = b) ∧
    (∀ c : Int, -1195 ≤ c → c ≤ 1345 → |decodeGain (encodeGain m c) - c| ≤ 5) ∧
    encodeGain .halfAway 1345 = 255 ∧ encodeGain .halfEven 1345 = 254 ∧
    (∀ c lo hi : Int, lo ≤ c → c ≤ hi → encodeGain m (min hi (max lo c)) = encodeGain m c) ∧
    (∀ c d : Int, c ≤ d → (encodeGain m c).toNat ≤ (encodeGain m d).toNat ∧ (encodeQ m c).toNat ≤ (encodeQ m d).toNat) ∧
    (encodeGain m (-1200) = 0 ∧ encodeGain m 0 = 120 ∧ encodeGain m 1350 = 255 ∧
      ∀ c : Int, -1200 ≤ c → c ≤ 1350 → (encodeGain m c).toNat ≤ 255) ∧
    (∀ c : Int, round10 m (-c) = -round10 m c) ∧
    (∀ c : Int, -32768 ≤ c → c ≤ 32767 → |round10 m c| < 32768 ∧ |round10 m c + 120| < 32768) ∧
    (∀ b : Byte, |decodeGain b| < 32768 ∧ decodeQ b < 32768)

/-- R62 to R66, over the operations: ENC_GAIN of the answer of DEC_GAIN, and ENC_Q of the answer of DEC_Q, answer the code. -/
def Obligations.EncodingADecodedCodeGivesItBack : Prop :=
  ∀ (a : Byte) (s : State),
    (NextWith (exec (.decGain a) s) fun t => ∃ r, t.resp = some r ∧
      NextWith (exec (.encGain r.res) t) fun u => ∃ r', u.resp = some r' ∧ r'.res.toNat = a.toNat) ∧
    (NextWith (exec (.decQ a) s) fun t => ∃ r, t.resp = some r ∧
      NextWith (exec (.encQ r.res) t) fun u => ∃ r', u.resp = some r' ∧ r'.res.toNat = a.toNat)

/-! ### EqState (43_eqstate.md) -/

/-- R67: SET_BAND writes both codes of band `A`, and for `A > 7` answers `RANGE_ERR` and writes nothing. -/
def Obligations.SetBandWritesBothCodes : Prop :=
  WordsDecodeTo 0xFF00FFFF00000000 0x2000000000000000 (fun a _ x y => .setBand a x y) ∧
  ∀ (a : Byte) (x y : Half) (s : State),
    (a.toNat ≤ 7 → NextWith (exec (.setBand a x y) s) fun t =>
      OnlyResponds { s with band := t.band } t ∧ Responds t .ok 0 [] ∧
      ∀ j : Fin 8, t.band[j] =
        if j.val = a.toNat then ⟨encodeGain .halfAway x.toInt, encodeQ .halfAway y.toInt⟩ else s.band[j]) ∧
    (7 < a.toNat → NextWith (exec (.setBand a x y) s) fun t => OnlyResponds s t ∧ Responds t .rangeErr 0 [])

/-- R68: SET_BAND_GAIN writes the gain code of band `A` and keeps its Q code. -/
def Obligations.SetBandGainWritesTheGainOnly : Prop :=
  WordsDecodeTo 0xFF00FFFF0000FFFF 0x2100000000000000 (fun a _ x _ => .setBandGain a x) ∧
  ∀ (a : Byte) (x : Half) (s : State),
    (a.toNat ≤ 7 → NextWith (exec (.setBandGain a x) s) fun t =>
      OnlyResponds { s with band := t.band } t ∧ Responds t .ok 0 [] ∧
      ∀ j : Fin 8, t.band[j] = if j.val = a.toNat then ⟨encodeGain .halfAway x.toInt, s.band[j].q⟩ else s.band[j]) ∧
    (7 < a.toNat → NextWith (exec (.setBandGain a x) s) fun t => OnlyResponds s t ∧ Responds t .rangeErr 0 [])

/-- R69: SET_BAND_Q writes the Q code of band `A` and keeps its gain code. -/
def Obligations.SetBandQWritesTheQOnly : Prop :=
  WordsDecodeTo 0xFF00FFFFFFFF0000 0x2200000000000000 (fun a _ _ y => .setBandQ a y) ∧
  ∀ (a : Byte) (y : Half) (s : State),
    (a.toNat ≤ 7 → NextWith (exec (.setBandQ a y) s) fun t =>
      OnlyResponds { s with band := t.band } t ∧ Responds t .ok 0 [] ∧
      ∀ j : Fin 8, t.band[j] = if j.val = a.toNat then ⟨s.band[j].g, encodeQ .halfAway y.toInt⟩ else s.band[j]) ∧
    (7 < a.toNat → NextWith (exec (.setBandQ a y) s) fun t => OnlyResponds s t ∧ Responds t .rangeErr 0 [])

/-- R70: READ_BAND answers the gain code in bits 15:8 and the Q code in bits 7:0. -/
def Obligations.ReadBandAnswersBothCodes : Prop :=
  WordsDecodeTo 0xFF00FFFFFFFFFFFF 0x2300000000000000 (fun a _ _ _ => .readBand a) ∧
  ∀ (a : Byte) (s : State),
    (∀ j : Fin 8, j.val = a.toNat → NextWith (exec (.readBand a) s) fun t =>
      OnlyResponds s t ∧ ∃ res : Half, Responds t .ok res [] ∧ res.toNat = s.band[j].g.toNat * 256 + s.band[j].q.toNat ∧
        res.extractLsb' 8 8 = s.band[j].g ∧ res.extractLsb' 0 8 = s.band[j].q) ∧
    (7 < a.toNat → NextWith (exec (.readBand a) s) fun t => OnlyResponds s t ∧ Responds t .rangeErr 0 [])

/-- R71: STAGE_PRESET appends the pair unencoded, and refuses a ninth. -/
def Obligations.StagePresetAppendsOrRefuses : Prop :=
  WordsDecodeTo 0xFFFFFFFF00000000 0x2400000000000000 (fun _ _ x y => .stagePreset x y) ∧
  ∀ (x y : Half) (s : State),
    (s.ps.length ≠ 8 → NextWith (exec (.stagePreset x y) s) fun t =>
      OnlyResponds { s with ps := s.ps ++ [⟨x, y⟩] } t ∧ Responds t .ok 0 []) ∧
    (s.ps.length = 8 → NextWith (exec (.stagePreset x y) s) fun t =>
      OnlyResponds { s with psOvf := true } t ∧ Responds t .argErr 0 [])

/-- R72: APPLY_PRESET writes all 8 bands from exactly 8 pairs, pair `i` to band `i`, or none; the pairs are consumed. -/
def Obligations.ApplyPresetWritesAllBandsOrNone : Prop :=
  WordsDecodeTo 0xFFFFFFFFFFFFFFFF 0x2500000000000000 (fun _ _ _ _ => .applyPreset) ∧
  ∀ s : State,
    (s.psOvf = false → s.ps.length = 8 → NextWith (exec .applyPreset s) fun t =>
      OnlyResponds { s with ps := [], band := t.band } t ∧ Responds t .ok 0 [] ∧
      ∀ (j : Fin 8) (p : PresetPair), s.ps[j.val]? = some p →
        t.band[j] = ⟨encodeGain .halfAway p.gain.toInt, encodeQ .halfAway p.q.toInt⟩) ∧
    (s.psOvf = true ∨ s.ps.length ≠ 8 → NextWith (exec .applyPreset s) fun t =>
      OnlyResponds { s with ps := [], psOvf := false } t ∧ Responds t .argErr 0 [])

/-- R49, R71, R72: PRESET from an empty staging buffer writes the bands for exactly 8 pairs, and otherwise answers `ARG_ERR`
with the bands as before; the buffer and its flag are clear in both cases. -/
def Obligations.PresetSequenceAppliesExactlyEightPairs : Prop :=
  ∀ (pairs : List PresetPair) (s : State), s.ps = [] → s.psOvf = false →
    NextWith (runWords ((presetOps pairs).map encode) s) fun t =>
      OnlyResponds { s with band := t.band } t ∧
      (pairs.length = 8 → Responds t .ok 0 [] ∧ ∀ (j : Fin 8) (p : PresetPair), pairs[j.val]? = some p →
        t.band[j] = ⟨encodeGain .halfAway p.gain.toInt, encodeQ .halfAway p.q.toInt⟩) ∧
      (pairs.length ≠ 8 → Responds t .argErr 0 [] ∧ t.band = s.band)

/-- R73: RESET_EQ sets all bands to (120, 7) and touches nothing else. -/
def Obligations.ResetEqSetsTheDefaultBands : Prop :=
  WordsDecodeTo 0xFFFFFFFFFFFFFFFF 0x2600000000000000 (fun _ _ _ _ => .resetEq) ∧
  ∀ s : State, NextWith (exec .resetEq s) fun t =>
    OnlyResponds { s with band := t.band } t ∧ Responds t .ok 0 [] ∧ ∀ j : Fin 8, t.band[j] = ⟨120, 7⟩

/-- R74: the CustomEq payload has 24 bytes, and its triplet `i` is the index, the gain code and the Q code of band `i`. -/
def Obligations.CustomEqPayloadIsBandMajor : Prop :=
  ∀ band : Vector BandCode 8,
    (customEqPayload band).length = 24 ∧
    ∀ i : Fin 8, (customEqPayload band)[3 * i.val]? = some (BitVec.ofNat 8 i.val) ∧
      (customEqPayload band)[3 * i.val + 1]? = some band[i].g ∧
      (customEqPayload band)[3 * i.val + 2]? = some band[i].q

/-- R75: EQ_PAYLOAD emits the CustomEq payload and changes no state. -/
def Obligations.EqPayloadEmitsThePayload : Prop :=
  WordsDecodeTo 0xFFFFFFFFFFFFFFFF 0x2700000000000000 (fun _ _ _ _ => .eqPayload) ∧
  ∀ s : State, NextWith (exec .eqPayload s) fun t =>
    OnlyResponds s t ∧ Responds t .ok 0 (customEqPayload s.band)

/-! ### DeviceInfoParser (44_devinfo.md) -/

/-- R76, R77: `devinfo_parse` fails for fewer than 5 bytes, and otherwise reports bytes 2 and 3 and the scanned name. -/
def Obligations.DevinfoParseReadsBatteriesAndName : Prop :=
  ∀ p : List Byte,
    (p.length < 5 → devinfoParse p = none) ∧
    (∀ l r : Byte, 5 ≤ p.length → p[2]? = some l → p[3]? = some r → devinfoParse p = some ⟨l, r, nameScan p⟩)

/-- R78: bytes 0, 1 and 4 of the info payload affect no output but the raw-frame view: two DeviceInfo notifications that differ only
there are classified alike. -/
def Obligations.ReservedInfoBytesAffectNoClassification : Prop :=
  ∀ p q : List Byte, p.length = q.length → (∀ i, i ≠ 0 → i ≠ 1 → i ≠ 4 → p[i]? = q[i]?) →
    classify ([0x51, 0x58, 0x57, 0x27, 0x02] ++ p) = classify ([0x51, 0x58, 0x57, 0x27, 0x02] ++ q)

/-- R79, R80: `name_scan` gives the accepted candidate with the largest index from 5 on, and the empty name when there is none. -/
def Obligations.NameScanTakesTheRightmostCandidate : Prop :=
  ∀ p : List Byte,
    (∀ (i : Nat) (name : List Byte), 5 ≤ i → NameAccepted p i name →
      (∀ j other, i < j → ¬ NameAccepted p j other) → nameScan p = name) ∧
    ((∀ i name, 5 ≤ i → ¬ NameAccepted p i name) → nameScan p = [])

/-- R81, properties 1 to 4: the name has at most 31 bytes, all printable; the last index is never accepted; no byte inside an
accepted run is an accepted candidate; a name lies in the payload from index 6 on. -/
def Obligations.NameScanProperties : Prop :=
  ∀ p : List Byte,
    (nameScan p).length ≤ 31 ∧
    (∀ c ∈ nameScan p, 0x20 ≤ c.toNat ∧ c.toNat ≤ 0x7E) ∧
    (∀ name, ¬ NameAccepted p (p.length - 1) name) ∧
    (∀ i name j other, NameAccepted p i name → i < j → j < i + 1 + name.length → ¬ NameAccepted p j other) ∧
    (nameScan p ≠ [] → ∃ k, 6 ≤ k ∧ k + (nameScan p).length ≤ p.length ∧ nameScan p = (p.drop k).take (nameScan p).length)

/-! ### Frame builders and control (45_frame_builders.md, 46_control.md) -/

/-- R84: BUILD_SELECT_EQ emits the SelectEq frame of a preset number in 1..4, and refuses any other. -/
def Obligations.BuildSelectEqEmitsTheFrameOrRefuses : Prop :=
  WordsDecodeTo 0xFF00FFFFFFFFFFFF 0x3000000000000000 (fun a _ _ _ => .buildSelectEq a) ∧
  ∀ (a : Byte) (s : State),
    (1 ≤ a.toNat → a.toNat ≤ 4 → NextWith (exec (.buildSelectEq a) s) fun t =>
      OnlyResponds s t ∧ Responds t .ok 0 [0x51, 0x58, 0x57, 0x10, 0x01, 0x01, a]) ∧
    (a.toNat < 1 ∨ 4 < a.toNat → NextWith (exec (.buildSelectEq a) s) fun t =>
      OnlyResponds s t ∧ Responds t .rangeErr 0 [])

/-- R85: BUILD_CUSTOM_EQ emits the CustomEq frame of all 8 bands and changes no state. -/
def Obligations.BuildCustomEqEmitsAllBands : Prop :=
  WordsDecodeTo 0xFFFFFFFFFFFFFFFF 0x3100000000000000 (fun _ _ _ _ => .buildCustomEq) ∧
  ∀ s : State, NextWith (exec .buildCustomEq s) fun t =>
    OnlyResponds s t ∧ Responds t .ok 0 ([0x51, 0x58, 0x57, 0x20, 0x03, 0x18] ++ customEqPayload s.band)

/-- R86: BUILD_DEVINFO_REQ emits the DeviceInfo request and changes no state. -/
def Obligations.BuildDevinfoReqEmitsTheRequest : Prop :=
  WordsDecodeTo 0xFFFFFFFFFFFFFFFF 0x3200000000000000 (fun _ _ _ _ => .buildDevinfoReq) ∧
  ∀ s : State, NextWith (exec .buildDevinfoReq s) fun t =>
    OnlyResponds s t ∧ Responds t .ok 0 [0x51, 0x58, 0x57, 0x27, 0x01, 0x00]

/-- 45_frame_builders.md: each builder's OUT is byte-identical to FRAME with the same command, type and payload, and a builder
leaves the staged payload alone. -/
def Obligations.BuildersEqualTheFrameSequence : Prop :=
  ∀ (s : State) (i : Instr) (c y : Byte) (p : List Byte), s.pay = [] → s.payOvf = false →
    ((∃ preset : Preset, i = .buildSelectEq (Config.presetNumber preset) ∧ c = 0x10 ∧ y = 0x01 ∧
        p = [Config.presetNumber preset]) ∨
      (i = .buildCustomEq ∧ c = 0x20 ∧ y = 0x03 ∧ p = customEqPayload s.band) ∨
      (i = .buildDevinfoReq ∧ c = 0x27 ∧ y = 0x01 ∧ p = [])) →
    ∃ t, exec i s = .next t ∧ runWords ((frameOps c y p).map encode) s = .next t

/-- R87: CLEAR empties the three staging buffers and their flags, and keeps `band`. -/
def Obligations.ClearDiscardsEveryStagedArgument : Prop :=
  WordsDecodeTo 0xFFFFFFFFFFFFFFFF 0x3F00000000000000 (fun _ _ _ _ => .clear) ∧
  ∀ s : State, NextWith (exec .clear s) fun t =>
    OnlyResponds { s with pay := [], payOvf := false, rx := [], rxOvf := false, ps := [], psOvf := false } t ∧
    Responds t .ok 0 []

/-! ### Errors (60_exceptions.md) -/

/-- R92: which operations answer an error, and on exactly which cause. -/
def Obligations.ErrorStatusesHaveExactlyTheirCauses : Prop :=
  ∀ (i : Instr) (s t : State) (r : Response), exec i s = .next t → t.resp = some r →
    (r.status = .argErr ↔
      ((∃ a, i = .pushPay a) ∧ s.pay.length = 255) ∨ ((∃ c y, i = .encode c y) ∧ s.payOvf = true) ∨
      ((∃ x y, i = .stagePreset x y) ∧ s.ps.length = 8) ∨ (i = .applyPreset ∧ (s.ps.length ≠ 8 ∨ s.psOvf = true))) ∧
    (r.status = .rangeErr ↔
      (∃ a : Byte, 7 < a.toNat ∧ ((∃ x y, i = .setBand a x y) ∨ (∃ x, i = .setBandGain a x) ∨ (∃ y, i = .setBandQ a y) ∨
        i = .readBand a)) ∨ (∃ a : Byte, i = .buildSelectEq a ∧ ¬ (1 ≤ a.toNat ∧ a.toNat ≤ 4))) ∧
    (r.status = .rxOverflow ↔ ((∃ a, i = .pushRx a) ∧ s.rx.length = 261) ∨ (i = .decode ∧ s.rxOvf = true)) ∧
    r.status ≠ .illegalOp

/-- R93: a DeviceInfo response whose info payload is shorter than 5 bytes is reported as FORMAT_ERROR with code 0x27 and status
OK, with the battery and name fields 0, and only such a notification is; what is no QXW frame for R54
(no magic, or fewer than 5 bytes) is UNRECOGNIZED. -/
def Obligations.FormatErrorIsAnEventNotAStatus : Prop :=
  ∀ s : State, s.rxOvf = false → NextWith (exec .decode s) fun t =>
    ∃ e : Evt, Reports t .ok e ∧
      (e.kind = .formatError ↔ s.rx.take 5 = [0x51, 0x58, 0x57, 0x27, 0x02] ∧ s.rx.length < 10) ∧
      (e.kind = .formatError → e.code = 0x27 ∧ NoDeviceInfo e) ∧
      (s.rx.take 3 ≠ [0x51, 0x58, 0x57] ∨ s.rx.length < 5 → e.kind = .unrecognized)

/-! ### Assembler lines of pseudo-instructions, and the codes on the ports -/

/-- R48, R49: `.word` presents its word as it stands; FRAME, RECV and PRESET present the words of their expansions, with the
bytes and pairs that their literals write; and these four lines present words for no other operands. That FRAME needs command and
type, and that RECV may have no byte and PRESET no pair, is the model's choice (log entry 13). -/
def Obligations.PseudoLinesPresentTheirExpansions : Prop :=
  (∀ n : Nat, n < 2 ^ 64 → ∃ w : Word, lineWords (.word (.hex n)) = some [w] ∧ w.toNat = n) ∧
  (∀ (c y : Literal) (bytes : List Literal) (nc ny : Nat) (ns : List Nat),
    ByteLiteral c nc → ByteLiteral y ny → List.Forall₂ ByteLiteral bytes ns →
      lineWords (.frame (c :: y :: bytes)) =
        some ((frameOps (BitVec.ofNat 8 nc) (BitVec.ofNat 8 ny) (ns.map (BitVec.ofNat 8))).map encode)) ∧
  (∀ (bytes : List Literal) (ns : List Nat), List.Forall₂ ByteLiteral bytes ns →
      lineWords (.recv bytes) = some ((recvOps (ns.map (BitVec.ofNat 8))).map encode)) ∧
  (∀ vs : List (Int × Int), (∀ v ∈ vs, -32768 ≤ v.1 ∧ v.1 ≤ 32767 ∧ -32768 ≤ v.2 ∧ v.2 ≤ 32767) →
      lineWords (.preset (vs.flatMap (fun v => [.dec v.1, .dec v.2]))) =
        some ((presetOps (vs.map (fun v => ⟨BitVec.ofInt 16 v.1, BitVec.ofInt 16 v.2⟩))).map encode)) ∧
  (∀ (c y : Byte) (p : List Byte), frameOps c y p = p.map Instr.pushPay ++ [.encode c y]) ∧
  (∀ b : List Byte, recvOps b = b.map Instr.pushRx ++ [.decode]) ∧
  (∀ pairs : List PresetPair,
    presetOps pairs = pairs.map (fun p => Instr.stagePreset p.gain p.q) ++ [.applyPreset]) ∧
  (∀ l : Literal, lineWords (.word l) ≠ none → ∃ n, l = .hex n ∧ n < 2 ^ 64) ∧
  (∀ args : List Literal, lineWords (.frame args) ≠ none → 2 ≤ args.length ∧ ∀ l ∈ args, ∃ n, ByteLiteral l n) ∧
  (∀ args : List Literal, lineWords (.recv args) ≠ none → ∀ l ∈ args, ∃ n, ByteLiteral l n) ∧
  (∀ args : List Literal, lineWords (.preset args) ≠ none →
    args.length % 2 = 0 ∧ ∀ l ∈ args, ∃ v, HundredthsLiteral l v)

/-- R23, R25: the codes on the `status` and `evt` ports, that the codes these rules call never produced are no status and no
event kind, and that every event but DECODE's has kind 0. -/
def Obligations.PortCodesAreThoseOfTheSpec : Prop :=
  (Status.ok.code = 0 ∧ Status.argErr.code = 1 ∧ Status.rangeErr.code = 2 ∧ Status.illegalOp.code = 3 ∧
    Status.rxOverflow.code = 4) ∧
  (EvtKind.none.code = 0 ∧ EvtKind.presetConfirmed.code = 1 ∧ EvtKind.customEqConfirmed.code = 2 ∧
    EvtKind.deviceInfo.code = 3 ∧ EvtKind.unrecognized.code = 4 ∧ EvtKind.formatError.code = 5) ∧
  (∀ status : Status, status.code.toNat ≤ 4) ∧ (∀ kind : EvtKind, kind.code.toNat ≤ 5) ∧
  (∀ (i : Instr) (s t : State) (r : Response), exec i s = .next t → t.resp = some r →
    (i ≠ .decode → r.evt.kind.code = 0) ∧ (i = .decode → r.evt.kind.code ≠ 0))
end

