-- ==== Sys2Proof/Laws/Asm.lean ====
section
/-! SUPPORT. The assembler: what each check of a literal means, what value a literal has in its field, and when a line presents
words. -/

namespace Sys2Proof.Machine

/-! ### Literals -/

theorem isByte_iff (l : Literal) : l.isByte = true ↔ ∃ n, ByteLiteral l n := by
  simp only [Literal.isByte, Bool.and_eq_true, decide_eq_true_eq]
  constructor
  · rintro ⟨h0, h1⟩
    cases l with
    | dec v =>
      simp only [Literal.value] at h0 h1
      exact ⟨v.toNat, .inl (by rw [Int.toNat_of_nonneg h0]), by omega⟩
    | hex n =>
      simp only [Literal.value] at h1
      exact ⟨n, .inr rfl, by omega⟩
  · rintro ⟨n, rfl | rfl, hn⟩ <;> simp only [Literal.value] <;> omega

theorem isHundredths_iff (l : Literal) : l.isHundredths = true ↔ ∃ v, HundredthsLiteral l v := by
  cases l <;> simp [Literal.isHundredths, HundredthsLiteral]

theorem isWord_iff (l : Literal) : l.isWord = true ↔ ∃ n, l = .hex n ∧ n < 2 ^ 64 := by
  cases l <;> simp [Literal.isWord]

theorem toByte_eq {l : Literal} {n : Nat} (h : ByteLiteral l n) : l.toByte = BitVec.ofNat 8 n := by
  rcases h with ⟨rfl | rfl, -⟩ <;> exact BitVec.ofInt_natCast 8 n

theorem toByte_toNat {l : Literal} {n : Nat} (h : ByteLiteral l n) : l.toByte.toNat = n := by
  rw [toByte_eq h, BitVec.toNat_ofNat]
  have := h.2
  omega

theorem toHalf_toInt {l : Literal} {v : Int} (h : HundredthsLiteral l v) : l.toHalf.toInt = v := by
  obtain ⟨rfl, h1, h2⟩ := h
  rw [Literal.toHalf, Literal.value, BitVec.toInt_ofInt, Int.bmod_eq_of_le] <;> omega

theorem toWord_toNat {n : Nat} (h : n < 2 ^ 64) : (Literal.hex n).toWord.toNat = n := by
  rw [Literal.toWord, Literal.value, BitVec.ofInt_natCast, BitVec.toNat_ofNat, Nat.mod_eq_of_lt h]

/-- The bytes that a list of literals writes. -/
theorem map_toByte_eq {ls : List Literal} {ns : List Nat} (h : List.Forall₂ ByteLiteral ls ns) :
    ls.map Literal.toByte = ns.map (BitVec.ofNat 8) := by
  induction h with
  | nil => rfl
  | cons h _ ih => rw [List.map_cons, List.map_cons, toByte_eq h, ih]

theorem all_isByte {ls : List Literal} {ns : List Nat} (h : List.Forall₂ ByteLiteral ls ns) :
    ls.all Literal.isByte = true := by
  induction h with
  | nil => rfl
  | cons h _ ih => rw [List.all_cons, ih, (isByte_iff _).mpr ⟨_, h⟩]; rfl

/-! ### Lines -/

/-- Only a line that R48 and R49 allow presents words. -/
theorem wellFormed_of_lineWords {l : AsmLine} (h : lineWords l ≠ none) : l.wellFormed = true := by
  by_contra hw
  exact h (by simp [lineWords, hw])

/-- The operand checks of R48 accept exactly the operands that R48 lets a line of each format write. -/
theorem argsWellFormed_iff (f : Format) (args : List Literal) :
    argsWellFormed f args = true ↔ ∃ a b x y, LineOperands f args a b x y := by
  constructor
  · intro h
    unfold argsWellFormed at h
    split at h <;> try simp only [Bool.and_eq_true, isByte_iff, isHundredths_iff, and_assoc] at h
    · exact ⟨_, _, _, _, .none⟩
    · obtain ⟨_, ha⟩ := h; exact ⟨_, _, _, _, .a ha⟩
    · obtain ⟨⟨_, ha⟩, _, hb⟩ := h; exact ⟨_, _, _, _, .ab ha hb⟩
    · obtain ⟨_, hx⟩ := h; exact ⟨_, _, _, _, .x hx⟩
    · obtain ⟨_, hy⟩ := h; exact ⟨_, _, _, _, .y hy⟩
    · obtain ⟨⟨_, ha⟩, _, hx⟩ := h; exact ⟨_, _, _, _, .ax ha hx⟩
    · obtain ⟨⟨_, ha⟩, _, hy⟩ := h; exact ⟨_, _, _, _, .ay ha hy⟩
    · obtain ⟨⟨_, ha⟩, ⟨_, hx⟩, _, hy⟩ := h; exact ⟨_, _, _, _, .axy ha hx hy⟩
    · obtain ⟨⟨_, hx⟩, _, hy⟩ := h; exact ⟨_, _, _, _, .xy hx hy⟩
    · cases h
  · rintro ⟨a, b, x, y, h⟩
    cases h <;> simp only [argsWellFormed, Bool.and_eq_true, isByte_iff, isHundredths_iff]
    case a ha => exact ⟨_, ha⟩
    case ab ha hb => exact ⟨⟨_, ha⟩, _, hb⟩
    case x hx => exact ⟨_, hx⟩
    case y hy => exact ⟨_, hy⟩
    case ax ha hx => exact ⟨⟨_, ha⟩, _, hx⟩
    case ay ha hy => exact ⟨⟨_, ha⟩, _, hy⟩
    case axy ha hx hy => exact ⟨⟨⟨_, ha⟩, _, hx⟩, _, hy⟩
    case xy hx hy => exact ⟨⟨_, hx⟩, _, hy⟩

/-- The pairs of the literals of a PRESET line. -/
theorem literalPairs_flatMap (vs : List (Int × Int)) :
    literalPairs (vs.flatMap (fun v => [.dec v.1, .dec v.2])) =
      vs.map (fun v => ⟨BitVec.ofInt 16 v.1, BitVec.ofInt 16 v.2⟩) := by
  induction vs with
  | nil => rfl
  | cons v vs ih => simp [literalPairs, ih, Literal.toHalf, Literal.value]

end Sys2Proof.Machine
end

