-- ==== Sys2Proof/Laws/Encoding.lean ====
section
/-! SUPPORT. The command word as a number: what packing and the field accessors do, and what an accepted word is. -/

namespace Sys2Proof

/-- Concatenation as a number. -/
theorem append_toNat {m n : Nat} (u : BitVec m) (v : BitVec n) : (u ++ v).toNat = u.toNat * 2 ^ n + v.toNat := by
  rw [BitVec.toNat_append, ← Nat.shiftLeft_add_eq_or_of_lt v.isLt, Nat.shiftLeft_eq]

theorem packWord_toNat (o a b : Byte) (x y : Half) :
    (packWord o a b x y).toNat =
      o.toNat * 2 ^ 56 + a.toNat * 2 ^ 48 + b.toNat * 2 ^ 40 + x.toNat * 2 ^ 16 + y.toNat := by
  have h0 : (0 : Byte).toNat = 0 := rfl
  simp only [packWord, append_toNat, h0]
  omega

theorem opcOf_toNat (w : Word) : (opcOf w).toNat = w.toNat / 2 ^ 56 % 256 := by
  simp [opcOf, BitVec.extractLsb'_toNat, Nat.shiftRight_eq_div_pow]

theorem aOf_toNat (w : Word) : (aOf w).toNat = w.toNat / 2 ^ 48 % 256 := by
  simp [aOf, BitVec.extractLsb'_toNat, Nat.shiftRight_eq_div_pow]

theorem bOf_toNat (w : Word) : (bOf w).toNat = w.toNat / 2 ^ 40 % 256 := by
  simp [bOf, BitVec.extractLsb'_toNat, Nat.shiftRight_eq_div_pow]

theorem rOf_toNat (w : Word) : (rOf w).toNat = w.toNat / 2 ^ 32 % 256 := by
  simp [rOf, BitVec.extractLsb'_toNat, Nat.shiftRight_eq_div_pow]

theorem xOf_toNat (w : Word) : (xOf w).toNat = w.toNat / 2 ^ 16 % 65536 := by
  simp [xOf, BitVec.extractLsb'_toNat, Nat.shiftRight_eq_div_pow]

theorem yOf_toNat (w : Word) : (yOf w).toNat = w.toNat % 65536 := by
  simp [yOf, BitVec.extractLsb'_toNat]

/-! ### The fields of a packed word -/

@[simp] theorem opcOf_packWord (o a b : Byte) (x y : Half) : opcOf (packWord o a b x y) = o := by
  apply BitVec.eq_of_toNat_eq
  rw [opcOf_toNat, packWord_toNat]
  have := o.isLt; have := a.isLt; have := b.isLt; have := x.isLt; have := y.isLt
  omega

@[simp] theorem aOf_packWord (o a b : Byte) (x y : Half) : aOf (packWord o a b x y) = a := by
  apply BitVec.eq_of_toNat_eq
  rw [aOf_toNat, packWord_toNat]
  have := o.isLt; have := a.isLt; have := b.isLt; have := x.isLt; have := y.isLt
  omega

@[simp] theorem bOf_packWord (o a b : Byte) (x y : Half) : bOf (packWord o a b x y) = b := by
  apply BitVec.eq_of_toNat_eq
  rw [bOf_toNat, packWord_toNat]
  have := o.isLt; have := a.isLt; have := b.isLt; have := x.isLt; have := y.isLt
  omega

@[simp] theorem rOf_packWord (o a b : Byte) (x y : Half) : rOf (packWord o a b x y) = 0 := by
  apply BitVec.eq_of_toNat_eq
  rw [rOf_toNat, packWord_toNat]
  have := o.isLt; have := a.isLt; have := b.isLt; have := x.isLt; have := y.isLt
  change _ = 0
  omega

@[simp] theorem xOf_packWord (o a b : Byte) (x y : Half) : xOf (packWord o a b x y) = x := by
  apply BitVec.eq_of_toNat_eq
  rw [xOf_toNat, packWord_toNat]
  have := o.isLt; have := a.isLt; have := b.isLt; have := x.isLt; have := y.isLt
  omega

@[simp] theorem yOf_packWord (o a b : Byte) (x y : Half) : yOf (packWord o a b x y) = y := by
  apply BitVec.eq_of_toNat_eq
  rw [yOf_toNat, packWord_toNat]
  have := o.isLt; have := a.isLt; have := b.isLt; have := x.isLt; have := y.isLt
  omega

/-- A word with `R` = 0 is its fields packed. -/
theorem packWord_of_fields {w : Word} (h : rOf w = 0) : packWord (opcOf w) (aOf w) (bOf w) (xOf w) (yOf w) = w := by
  apply BitVec.eq_of_toNat_eq
  rw [packWord_toNat, opcOf_toNat, aOf_toNat, bOf_toNat, xOf_toNat, yOf_toNat]
  have hr := congrArg BitVec.toNat h
  rw [rOf_toNat] at hr
  change _ = 0 at hr
  have := w.isLt
  omega

/-! ### Words by their fields -/

/-- Two words are equal when their six fields are. -/
theorem word_eq_iff_fields (w v : Word) :
    w = v ↔ opcOf w = opcOf v ∧ aOf w = aOf v ∧ bOf w = bOf v ∧ rOf w = rOf v ∧ xOf w = xOf v ∧ yOf w = yOf v := by
  constructor
  · rintro rfl; exact ⟨rfl, rfl, rfl, rfl, rfl, rfl⟩
  · rintro ⟨h1, h2, h3, h4, h5, h6⟩
    apply BitVec.eq_of_toNat_eq
    have h1 := congrArg BitVec.toNat h1
    have h2 := congrArg BitVec.toNat h2
    have h3 := congrArg BitVec.toNat h3
    have h4 := congrArg BitVec.toNat h4
    have h5 := congrArg BitVec.toNat h5
    have h6 := congrArg BitVec.toNat h6
    rw [opcOf_toNat, opcOf_toNat] at h1
    rw [aOf_toNat, aOf_toNat] at h2
    rw [bOf_toNat, bOf_toNat] at h3
    rw [rOf_toNat, rOf_toNat] at h4
    rw [xOf_toNat, xOf_toNat] at h5
    rw [yOf_toNat, yOf_toNat] at h6
    have := w.isLt
    have := v.isLt
    omega

theorem opcOf_and (w v : Word) : opcOf (w &&& v) = opcOf w &&& opcOf v := BitVec.extractLsb'_and
theorem aOf_and (w v : Word) : aOf (w &&& v) = aOf w &&& aOf v := BitVec.extractLsb'_and
theorem bOf_and (w v : Word) : bOf (w &&& v) = bOf w &&& bOf v := BitVec.extractLsb'_and
theorem rOf_and (w v : Word) : rOf (w &&& v) = rOf w &&& rOf v := BitVec.extractLsb'_and
theorem xOf_and (w v : Word) : xOf (w &&& v) = xOf w &&& xOf v := BitVec.extractLsb'_and
theorem yOf_and (w v : Word) : yOf (w &&& v) = yOf w &&& yOf v := BitVec.extractLsb'_and

/-- A masked comparison, field by field. -/
theorem masked_eq_iff_fields (w m v : Word) :
    w &&& m = v ↔ opcOf w &&& opcOf m = opcOf v ∧ aOf w &&& aOf m = aOf v ∧ bOf w &&& bOf m = bOf v ∧
      rOf w &&& rOf m = rOf v ∧ xOf w &&& xOf m = xOf v ∧ yOf w &&& yOf m = yOf v := by
  rw [word_eq_iff_fields, opcOf_and, aOf_and, bOf_and, rOf_and, xOf_and, yOf_and]

/-! ### The opcode map -/

/-- The opcode map has no two entries alike. -/
theorem opOfOpc_opc (o : Op) : opOfOpc o.opc = some o := by cases o <;> rfl

theorem opc_of_opOfOpc {opc : Byte} {o : Op} (h : opOfOpc opc = some o) : o.opc = opc := by
  have := List.find?_some h
  simpa using this

theorem opOfOpc_none_iff (opc : Byte) : opOfOpc opc = none ↔ ∀ o : Op, o.opc ≠ opc := by
  constructor
  · rintro h o rfl
    rw [opOfOpc_opc] at h; cases h
  · intro h
    rcases ho : opOfOpc opc with _ | o
    · rfl
    · exact absurd (opc_of_opOfOpc ho) (h o)

/-! ### Accepted words -/

/-- Everything an accepted word is. -/
theorem decode_ok_iff (w : Word) (i : Instr) :
    decode w = .ok i ↔
      ∃ o, opOfOpc (opcOf w) = some o ∧ rOf w = 0 ∧ unusedFieldsZero o.format w = true ∧
        i = o.build (aOf w) (bOf w) (xOf w) (yOf w) := by
  unfold decode
  rcases ho : opOfOpc (opcOf w) with _ | o
  · simp
  · simp only [Option.some.injEq, exists_eq_left']
    by_cases hr : rOf w = 0
    · by_cases hu : unusedFieldsZero o.format w = true
      · simp [hr, hu, eq_comm]
      · simp [hr, hu]
    · have hr' : ¬ rOf w = 0#8 := hr
      simp [hr']

theorem build_op (o : Op) (a b : Byte) (x y : Half) : (o.build a b x y).op = o := by cases o <;> rfl

theorem unusedFieldsZero_iff (f : Format) (w : Word) :
    unusedFieldsZero f w = true ↔
      (f.usesA = true ∨ aOf w = 0) ∧ (f.usesB = true ∨ bOf w = 0) ∧ (f.usesX = true ∨ xOf w = 0) ∧
        (f.usesY = true ∨ yOf w = 0) := by
  simp [unusedFieldsZero, and_assoc]

/-! ### The rows of the opcode table -/

/-- The masks and matches of spec/opcode_table.json are made as R46 says: ones in `OPC`, `R` and the unused fields, and `OPC` alone
in the match. -/
theorem opcodeRows_fields : ∀ r ∈ opcodeRows,
    (opcOf r.mask = 255 ∧ rOf r.mask = 255 ∧
      aOf r.mask = (if r.op.format.usesA then 0 else 255) ∧ bOf r.mask = (if r.op.format.usesB then 0 else 255) ∧
      xOf r.mask = (if r.op.format.usesX then 0 else 65535) ∧ yOf r.mask = (if r.op.format.usesY then 0 else 65535)) ∧
    (opcOf r.matchBits = r.op.opc ∧ rOf r.matchBits = 0 ∧
      aOf r.matchBits = 0 ∧ bOf r.matchBits = 0 ∧ xOf r.matchBits = 0 ∧ yOf r.matchBits = 0) := by
  decide

/-- What it means for a row to match a word, field by field. -/
theorem row_matches_iff (w : Word) {r : OpcodeRow} (h : r ∈ opcodeRows) :
    w &&& r.mask = r.matchBits ↔
      opOfOpc (opcOf w) = some r.op ∧ rOf w = 0 ∧ unusedFieldsZero r.op.format w = true := by
  have hop : opOfOpc (opcOf w) = some r.op ↔ opcOf w = r.op.opc :=
    ⟨fun h => (opc_of_opOfOpc h).symm, fun h => by rw [h, opOfOpc_opc]⟩
  have byteOnes (v : Byte) : v &&& 255 = v := BitVec.and_allOnes
  have halfOnes (v : Half) : v &&& 65535 = v := BitVec.and_allOnes
  have byteMask (c : Bool) (v : Byte) : v &&& (if c then 0 else 255) = 0 ↔ c = true ∨ v = 0 := by
    cases c <;> simp only [Bool.false_eq_true, if_false, if_true, byteOnes, false_or, true_or, iff_true]
    exact BitVec.and_zero
  have halfMask (c : Bool) (v : Half) : v &&& (if c then 0 else 65535) = 0 ↔ c = true ∨ v = 0 := by
    cases c <;> simp only [Bool.false_eq_true, if_false, if_true, halfOnes, false_or, true_or, iff_true]
    exact BitVec.and_zero
  obtain ⟨⟨m1, m2, m3, m4, m5, m6⟩, v1, v2, v3, v4, v5, v6⟩ := opcodeRows_fields r h
  rw [hop, unusedFieldsZero_iff, masked_eq_iff_fields, m1, m2, m3, m4, m5, m6, v1, v2, v3, v4, v5, v6, byteOnes, byteOnes,
    byteMask, byteMask, halfMask, halfMask]
  exact ⟨fun ⟨ho, ha, hb, hr, hx, hy⟩ => ⟨ho, hr, ha, hb, hx, hy⟩, fun ⟨ho, hr, ha, hb, hx, hy⟩ => ⟨ho, ha, hb, hr, hx, hy⟩⟩

/-- The words that a row selects decode to its operation, with their fields as operands. -/
theorem words_of_row_decode {r : OpcodeRow} (h : r ∈ opcodeRows) :
    Machine.WordsDecodeTo r.mask r.matchBits (fun a b x y => r.op.build a b x y) := by
  intro w hw
  obtain ⟨h1, h2, h3⟩ := (row_matches_iff w h).mp hw
  exact (decode_ok_iff w _).mpr ⟨_, h1, h2, h3, rfl⟩

end Sys2Proof
end

