-- ==== Sys2Proof/Laws/State.lean ====
section
/-! SUPPORT. One lemma per field per update of State, each true by rfl, so that no proof unfolds a record update. -/

namespace Sys2Proof.Machine

/-! ### Responding -/

@[simp] theorem respond_band (st : Status) (res : Half) (e : Evt) (out : List Byte) (s : State) : (respond st res e out s).band = s.band := rfl
@[simp] theorem respond_pay (st : Status) (res : Half) (e : Evt) (out : List Byte) (s : State) : (respond st res e out s).pay = s.pay := rfl
@[simp] theorem respond_payOvf (st : Status) (res : Half) (e : Evt) (out : List Byte) (s : State) : (respond st res e out s).payOvf = s.payOvf := rfl
@[simp] theorem respond_rx (st : Status) (res : Half) (e : Evt) (out : List Byte) (s : State) : (respond st res e out s).rx = s.rx := rfl
@[simp] theorem respond_rxOvf (st : Status) (res : Half) (e : Evt) (out : List Byte) (s : State) : (respond st res e out s).rxOvf = s.rxOvf := rfl
@[simp] theorem respond_ps (st : Status) (res : Half) (e : Evt) (out : List Byte) (s : State) : (respond st res e out s).ps = s.ps := rfl
@[simp] theorem respond_psOvf (st : Status) (res : Half) (e : Evt) (out : List Byte) (s : State) : (respond st res e out s).psOvf = s.psOvf := rfl
@[simp] theorem respond_inputs (st : Status) (res : Half) (e : Evt) (out : List Byte) (s : State) : (respond st res e out s).inputs = s.inputs := rfl
@[simp] theorem respond_resp (st : Status) (res : Half) (e : Evt) (out : List Byte) (s : State) : (respond st res e out s).resp = some ⟨st, res, e, out⟩ := rfl

/-! ### Setting `pay_ovf` -/

@[simp] theorem setPayOvf_band (s : State) : (setPayOvf s).band = s.band := rfl
@[simp] theorem setPayOvf_pay (s : State) : (setPayOvf s).pay = s.pay := rfl
@[simp] theorem setPayOvf_payOvf (s : State) : (setPayOvf s).payOvf = true := rfl
@[simp] theorem setPayOvf_rx (s : State) : (setPayOvf s).rx = s.rx := rfl
@[simp] theorem setPayOvf_rxOvf (s : State) : (setPayOvf s).rxOvf = s.rxOvf := rfl
@[simp] theorem setPayOvf_ps (s : State) : (setPayOvf s).ps = s.ps := rfl
@[simp] theorem setPayOvf_psOvf (s : State) : (setPayOvf s).psOvf = s.psOvf := rfl
@[simp] theorem setPayOvf_inputs (s : State) : (setPayOvf s).inputs = s.inputs := rfl
@[simp] theorem setPayOvf_resp (s : State) : (setPayOvf s).resp = s.resp := rfl

/-! ### Setting `rx_ovf` -/

@[simp] theorem setRxOvf_band (s : State) : (setRxOvf s).band = s.band := rfl
@[simp] theorem setRxOvf_pay (s : State) : (setRxOvf s).pay = s.pay := rfl
@[simp] theorem setRxOvf_payOvf (s : State) : (setRxOvf s).payOvf = s.payOvf := rfl
@[simp] theorem setRxOvf_rx (s : State) : (setRxOvf s).rx = s.rx := rfl
@[simp] theorem setRxOvf_rxOvf (s : State) : (setRxOvf s).rxOvf = true := rfl
@[simp] theorem setRxOvf_ps (s : State) : (setRxOvf s).ps = s.ps := rfl
@[simp] theorem setRxOvf_psOvf (s : State) : (setRxOvf s).psOvf = s.psOvf := rfl
@[simp] theorem setRxOvf_inputs (s : State) : (setRxOvf s).inputs = s.inputs := rfl
@[simp] theorem setRxOvf_resp (s : State) : (setRxOvf s).resp = s.resp := rfl

/-! ### Setting `ps_ovf` -/

@[simp] theorem setPsOvf_band (s : State) : (setPsOvf s).band = s.band := rfl
@[simp] theorem setPsOvf_pay (s : State) : (setPsOvf s).pay = s.pay := rfl
@[simp] theorem setPsOvf_payOvf (s : State) : (setPsOvf s).payOvf = s.payOvf := rfl
@[simp] theorem setPsOvf_rx (s : State) : (setPsOvf s).rx = s.rx := rfl
@[simp] theorem setPsOvf_rxOvf (s : State) : (setPsOvf s).rxOvf = s.rxOvf := rfl
@[simp] theorem setPsOvf_ps (s : State) : (setPsOvf s).ps = s.ps := rfl
@[simp] theorem setPsOvf_psOvf (s : State) : (setPsOvf s).psOvf = true := rfl
@[simp] theorem setPsOvf_inputs (s : State) : (setPsOvf s).inputs = s.inputs := rfl
@[simp] theorem setPsOvf_resp (s : State) : (setPsOvf s).resp = s.resp := rfl

/-! ### Consuming `pay` -/

@[simp] theorem dropPay_band (s : State) : (dropPay s).band = s.band := rfl
@[simp] theorem dropPay_pay (s : State) : (dropPay s).pay = [] := rfl
@[simp] theorem dropPay_payOvf (s : State) : (dropPay s).payOvf = false := rfl
@[simp] theorem dropPay_rx (s : State) : (dropPay s).rx = s.rx := rfl
@[simp] theorem dropPay_rxOvf (s : State) : (dropPay s).rxOvf = s.rxOvf := rfl
@[simp] theorem dropPay_ps (s : State) : (dropPay s).ps = s.ps := rfl
@[simp] theorem dropPay_psOvf (s : State) : (dropPay s).psOvf = s.psOvf := rfl
@[simp] theorem dropPay_inputs (s : State) : (dropPay s).inputs = s.inputs := rfl
@[simp] theorem dropPay_resp (s : State) : (dropPay s).resp = s.resp := rfl

/-! ### Consuming `rx` -/

@[simp] theorem dropRx_band (s : State) : (dropRx s).band = s.band := rfl
@[simp] theorem dropRx_pay (s : State) : (dropRx s).pay = s.pay := rfl
@[simp] theorem dropRx_payOvf (s : State) : (dropRx s).payOvf = s.payOvf := rfl
@[simp] theorem dropRx_rx (s : State) : (dropRx s).rx = [] := rfl
@[simp] theorem dropRx_rxOvf (s : State) : (dropRx s).rxOvf = false := rfl
@[simp] theorem dropRx_ps (s : State) : (dropRx s).ps = s.ps := rfl
@[simp] theorem dropRx_psOvf (s : State) : (dropRx s).psOvf = s.psOvf := rfl
@[simp] theorem dropRx_inputs (s : State) : (dropRx s).inputs = s.inputs := rfl
@[simp] theorem dropRx_resp (s : State) : (dropRx s).resp = s.resp := rfl

/-! ### Consuming `ps` -/

@[simp] theorem dropPs_band (s : State) : (dropPs s).band = s.band := rfl
@[simp] theorem dropPs_pay (s : State) : (dropPs s).pay = s.pay := rfl
@[simp] theorem dropPs_payOvf (s : State) : (dropPs s).payOvf = s.payOvf := rfl
@[simp] theorem dropPs_rx (s : State) : (dropPs s).rx = s.rx := rfl
@[simp] theorem dropPs_rxOvf (s : State) : (dropPs s).rxOvf = s.rxOvf := rfl
@[simp] theorem dropPs_ps (s : State) : (dropPs s).ps = [] := rfl
@[simp] theorem dropPs_psOvf (s : State) : (dropPs s).psOvf = false := rfl
@[simp] theorem dropPs_inputs (s : State) : (dropPs s).inputs = s.inputs := rfl
@[simp] theorem dropPs_resp (s : State) : (dropPs s).resp = s.resp := rfl

/-! ### Writing one band -/

@[simp] theorem writeBand_band (i : Fin 8) (v : BandCode) (s : State) : (writeBand i v s).band = s.band.set i v := rfl
@[simp] theorem writeBand_pay (i : Fin 8) (v : BandCode) (s : State) : (writeBand i v s).pay = s.pay := rfl
@[simp] theorem writeBand_payOvf (i : Fin 8) (v : BandCode) (s : State) : (writeBand i v s).payOvf = s.payOvf := rfl
@[simp] theorem writeBand_rx (i : Fin 8) (v : BandCode) (s : State) : (writeBand i v s).rx = s.rx := rfl
@[simp] theorem writeBand_rxOvf (i : Fin 8) (v : BandCode) (s : State) : (writeBand i v s).rxOvf = s.rxOvf := rfl
@[simp] theorem writeBand_ps (i : Fin 8) (v : BandCode) (s : State) : (writeBand i v s).ps = s.ps := rfl
@[simp] theorem writeBand_psOvf (i : Fin 8) (v : BandCode) (s : State) : (writeBand i v s).psOvf = s.psOvf := rfl
@[simp] theorem writeBand_inputs (i : Fin 8) (v : BandCode) (s : State) : (writeBand i v s).inputs = s.inputs := rfl
@[simp] theorem writeBand_resp (i : Fin 8) (v : BandCode) (s : State) : (writeBand i v s).resp = s.resp := rfl

/-! ### Reset -/

@[simp] theorem hardReset_band (s : State) : (hardReset s).band = defaultBands := rfl
@[simp] theorem hardReset_pay (s : State) : (hardReset s).pay = [] := rfl
@[simp] theorem hardReset_payOvf (s : State) : (hardReset s).payOvf = false := rfl
@[simp] theorem hardReset_rx (s : State) : (hardReset s).rx = [] := rfl
@[simp] theorem hardReset_rxOvf (s : State) : (hardReset s).rxOvf = false := rfl
@[simp] theorem hardReset_ps (s : State) : (hardReset s).ps = [] := rfl
@[simp] theorem hardReset_psOvf (s : State) : (hardReset s).psOvf = false := rfl
@[simp] theorem hardReset_inputs (s : State) : (hardReset s).inputs = s.inputs := rfl
@[simp] theorem hardReset_resp (s : State) : (hardReset s).resp = none := rfl

/-! ### The four ways to respond are `respond` -/

@[simp] theorem done_eq_respond (s : State) : done s = respond .ok 0 noEvt [] s := rfl
@[simp] theorem doneRes_eq_respond (res : Half) (s : State) : doneRes res s = respond .ok res noEvt [] s := rfl
@[simp] theorem doneOut_eq_respond (out : List Byte) (s : State) : doneOut out s = respond .ok 0 noEvt out s := rfl
@[simp] theorem raise_eq_respond (e : Status) (s : State) : raise e s = respond e 0 noEvt [] s := rfl
@[simp] theorem illegalWord_eq_respond (s : State) : illegalWord s = respond .illegalOp 0 noEvt [] s := rfl
@[simp] theorem idle_eq (s : State) : idle s = s := rfl

/-! ### The event of every operation but DECODE (10_state.md R25) -/

@[simp] theorem plainEvt_kind (k : EvtKind) (v : Bool) (c : Byte) : (plainEvt k v c).kind = k := rfl
@[simp] theorem plainEvt_codeValid (k : EvtKind) (v : Bool) (c : Byte) : (plainEvt k v c).codeValid = v := rfl
@[simp] theorem plainEvt_code (k : EvtKind) (v : Bool) (c : Byte) : (plainEvt k v c).code = c := rfl
@[simp] theorem plainEvt_battL (k : EvtKind) (v : Bool) (c : Byte) : (plainEvt k v c).battL = 0 := rfl
@[simp] theorem plainEvt_battR (k : EvtKind) (v : Bool) (c : Byte) : (plainEvt k v c).battR = 0 := rfl
@[simp] theorem plainEvt_nameLen (k : EvtKind) (v : Bool) (c : Byte) : (plainEvt k v c).nameLen = 0 := rfl
@[simp] theorem plainEvt_raw (k : EvtKind) (v : Bool) (c : Byte) : (plainEvt k v c).raw = noRaw := rfl
theorem plainEvt_name (k : EvtKind) (v : Bool) (c : Byte) : (plainEvt k v c).name = Vector.replicate 31 0 := by
  change padName [] = _
  decide

end Sys2Proof.Machine
end

