-- ==== Sys2Proof/Laws/Ops.lean ====
section
/-! SUPPORT. What each shared operation can do, said once: staging, operands, the input queue, name padding and candidates,
preset bands, the decoder's answers. -/

namespace Sys2Proof.Machine

/-! ### Staging buffers -/

theorem stage_full {α : Type} {capacity : Nat} {buf : List α} (x : α) (h : buf.length = capacity) :
    stage capacity buf x = none := by simp [stage, h]

theorem stage_room {α : Type} {capacity : Nat} {buf : List α} (x : α) (h : buf.length ≠ capacity) :
    stage capacity buf x = some (buf ++ [x]) := by simp [stage, h]

theorem stage_cases {α : Type} (capacity : Nat) (buf : List α) (x : α) :
    (buf.length = capacity ∧ stage capacity buf x = none) ∨
    (buf.length ≠ capacity ∧ stage capacity buf x = some (buf ++ [x])) := by
  by_cases h : buf.length = capacity
  · exact .inl ⟨h, stage_full x h⟩
  · exact .inr ⟨h, stage_room x h⟩

/-! ### Operands -/

theorem bandIndex_legal {a : Byte} (h : a.toNat < 8) : bandIndex a = some ⟨a.toNat, h⟩ := by
  simp [bandIndex, h]

theorem bandIndex_illegal {a : Byte} (h : 7 < a.toNat) : bandIndex a = none := by
  simp [bandIndex]; omega

theorem bandIndex_cases (a : Byte) :
    (∃ i : Fin 8, i.val = a.toNat ∧ bandIndex a = some i) ∨ (7 < a.toNat ∧ bandIndex a = none) := by
  by_cases h : a.toNat < 8
  · exact .inl ⟨⟨a.toNat, h⟩, rfl, bandIndex_legal h⟩
  · exact .inr ⟨by omega, bandIndex_illegal (by omega)⟩

theorem isPresetNumber_iff (a : Byte) : isPresetNumber a = true ↔ 1 ≤ a.toNat ∧ a.toNat ≤ 4 := by
  simp [isPresetNumber]

/-! ### Frames and the magic -/

theorem isMagic_iff (b0 b1 b2 : Byte) : isMagic b0 b1 b2 = true ↔ b0 = 0x51 ∧ b1 = 0x58 ∧ b2 = 0x57 := by
  simp [isMagic, and_assoc]

@[simp] theorem frame_length (c y : Byte) (p : List Byte) : (frame c y p).length = 6 + p.length := by
  simp [frame]; omega

theorem frame_eq (c y : Byte) (p : List Byte) :
    frame c y p = 0x51 :: 0x58 :: 0x57 :: c :: y :: BitVec.ofNat 8 p.length :: p := rfl

/-! ### The input queue -/

theorem takeInput_nil {s : State} (h : s.inputs = []) : takeInput s = none := by simp [takeInput, h]

theorem takeInput_cons {s : State} {i : HostInput} {rest : List HostInput} (h : s.inputs = i :: rest) :
    takeInput s = some (i, { s with inputs := rest }) := by simp [takeInput, h]

/-- Everything a step can be. -/
theorem step_cases (s : State) :
    (s.inputs = [] ∧ step s = .next s) ∨
    (∃ rest, s.inputs = .rst :: rest ∧ step s = .next (hardReset { s with inputs := rest })) ∨
    (∃ w rest, s.inputs = .command w :: rest ∧ step s = stepWord w { s with inputs := rest }) := by
  rcases h : s.inputs with _ | ⟨_ | _, rest⟩
  · exact .inl ⟨rfl, by simp [step, takeInput_nil h]⟩
  · exact .inr (.inr ⟨_, rest, rfl, by simp [step, takeInput_cons h]⟩)
  · exact .inr (.inl ⟨rest, rfl, by simp [step, takeInput_cons h]⟩)

/-- Everything one command word can be. -/
theorem stepWord_cases (w : Word) (s : State) :
    (∃ e, decode w = .error e ∧ stepWord w s = .next (illegalWord s)) ∨
    (∃ i, decode w = .ok i ∧ stepWord w s = exec i s) := by
  rcases h : decode w with e | i
  · exact .inl ⟨e, rfl, by simp [stepWord, h]⟩
  · exact .inr ⟨i, rfl, by simp [stepWord, h]⟩

theorem stepWord_ok {w : Word} {i : Instr} (s : State) (h : decode w = .ok i) : stepWord w s = exec i s := by
  simp [stepWord, h]

theorem runWords_cons_next {w : Word} {ws : List Word} {s t : State} (h : stepWord w s = .next t) :
    runWords (w :: ws) s = runWords ws t := by simp [runWords, h]

theorem runWords_append_next {ws vs : List Word} {s t : State} (h : runWords ws s = .next t) :
    runWords (ws ++ vs) s = runWords vs t := by
  induction ws generalizing s with
  | nil => simp only [runWords] at h; cases h; rfl
  | cons w ws ih =>
    simp only [List.cons_append, runWords] at h ⊢
    rcases hw : stepWord w s with u | f | r
    · rw [hw] at h; exact ih h
    · cases f
    · rw [hw] at h; cases h

/-! ### Names -/

theorem padName_toList (l : List Byte) (h : l.length ≤ 31) :
    (padName l).toList = l ++ List.replicate (31 - l.length) 0 := by
  simp only [padName, Vector.toList_mk, List.take_append, List.take_of_length_le h, List.take_replicate]
  rw [Nat.min_eq_left (by omega)]

theorem printable_iff (b : Byte) : printable b = true ↔ 0x20 ≤ b.toNat ∧ b.toNat ≤ 0x7E := by
  simp [printable]

/-- `nameCandidate` is the acceptance test of R79. -/
theorem nameCandidate_iff (p : List Byte) (i : Nat) (name : List Byte) :
    nameCandidate p i = some name ↔ NameAccepted p i name := by
  rcases h : p[i]? with _ | k
  · simp [nameCandidate, NameAccepted, h]
  · simp only [nameCandidate, NameAccepted, h, Option.some.injEq, exists_eq_left']
    rw [Option.ite_none_right_eq_some]
    constructor
    · rintro ⟨⟨h1, h2, h3, h4⟩, h5⟩
      refine ⟨h1, h2, h3, fun j hj hj' => ?_, (Option.some.inj h5).symm⟩
      have hlt : j < p.length := by omega
      refine ⟨p[j], by simp [hlt], ?_⟩
      rw [List.all_eq_true] at h4
      refine (printable_iff _).mp (h4 _ ?_)
      rw [List.mem_iff_getElem]
      exact ⟨j - (i + 1), by simp; omega, by simp; congr; omega⟩
    · rintro ⟨h1, h2, h3, h4, rfl⟩
      refine ⟨⟨h1, h2, h3, ?_⟩, rfl⟩
      rw [List.all_eq_true]
      intro c hc
      rw [List.mem_iff_getElem] at hc
      obtain ⟨j, hj, rfl⟩ := hc
      simp only [List.length_take, List.length_drop] at hj
      obtain ⟨c, hc, hc'⟩ := h4 (i + 1 + j) (by omega) (by omega)
      simp only [List.getElem_take, List.getElem_drop]
      rw [List.getElem?_eq_some_iff] at hc
      obtain ⟨_, rfl⟩ := hc
      exact (printable_iff _).mpr hc'

/-- The length of an accepted name is its prefix value, in 1..31. -/
theorem NameAccepted.length_eq {p : List Byte} {i : Nat} {name : List Byte} (h : NameAccepted p i name) :
    ∃ k : Byte, p[i]? = some k ∧ name.length = k.toNat ∧ 0 < k.toNat ∧ k.toNat < 32 ∧ i + 1 + k.toNat ≤ p.length := by
  obtain ⟨k, hk, h1, h2, h3, -, rfl⟩ := h
  exact ⟨k, hk, by simp; omega, h1, h2, h3⟩

/-- Everything the scan over the indices `5 + (n - 1)` down to 5 can give. -/
theorem nameScanDown_cases (p : List Byte) (n : Nat) :
    (∃ i, 5 ≤ i ∧ i < 5 + n ∧ NameAccepted p i (nameScanDown p n) ∧
      ∀ j other, i < j → j < 5 + n → ¬ NameAccepted p j other) ∨
    (nameScanDown p n = [] ∧ ∀ j other, 5 ≤ j → j < 5 + n → ¬ NameAccepted p j other) := by
  induction n with
  | zero => exact .inr ⟨rfl, fun j _ h h' => absurd h' (by omega)⟩
  | succ n ih =>
    rcases hc : nameCandidate p (5 + n) with _ | name
    · have hnone : ∀ other, ¬ NameAccepted p (5 + n) other := fun other ho => by
        rw [← nameCandidate_iff, hc] at ho; cases ho
      have hscan : nameScanDown p (n + 1) = nameScanDown p n := by simp [nameScanDown, hc]
      rw [hscan]
      rcases ih with ⟨i, h1, h2, h3, h4⟩ | ⟨h1, h2⟩
      · refine .inl ⟨i, h1, by omega, h3, fun j other hj hj' => ?_⟩
        rcases Nat.lt_or_ge j (5 + n) with hlt | hge
        · exact h4 j other hj hlt
        · obtain rfl : j = 5 + n := by omega
          exact hnone other
      · refine .inr ⟨h1, fun j other hj hj' => ?_⟩
        rcases Nat.lt_or_ge j (5 + n) with hlt | hge
        · exact h2 j other hj hlt
        · obtain rfl : j = 5 + n := by omega
          exact hnone other
    · have hscan : nameScanDown p (n + 1) = name := by simp [nameScanDown, hc]
      rw [hscan]
      exact .inl ⟨5 + n, by omega, by omega, (nameCandidate_iff _ _ _).mp hc, fun j _ hj hj' => absurd hj' (by omega)⟩

/-- A scanned name is short and printable. -/
theorem nameScan_short_printable (p : List Byte) :
    (nameScan p).length ≤ 31 ∧ ∀ c ∈ nameScan p, 0x20 ≤ c.toNat ∧ c.toNat ≤ 0x7E := by
  rcases nameScanDown_cases p (p.length - 5) with ⟨i, -, -, ⟨k, hk, h1, h2, h3, h4, h5⟩, -⟩ | ⟨h, -⟩
  · change (nameScanDown _ _).length ≤ 31 ∧ _
    unfold nameScan
    rw [h5]
    refine ⟨by simp; omega, fun c hc => ?_⟩
    rw [List.mem_iff_getElem] at hc
    obtain ⟨j, hj, rfl⟩ := hc
    simp only [List.length_take, List.length_drop] at hj
    obtain ⟨c, hc, hc'⟩ := h4 (i + 1 + j) (by omega) (by omega)
    simp only [List.getElem_take, List.getElem_drop]
    rw [List.getElem?_eq_some_iff] at hc
    obtain ⟨_, rfl⟩ := hc
    exact hc'
  · simp [nameScan, h]

/-! ### Bands -/

theorem writeBand_get (i j : Fin 8) (v : BandCode) (s : State) :
    (writeBand i v s).band[j] = if j = i then v else s.band[j] := by
  simp [Vector.getElem_set, Fin.ext_iff, eq_comm]

theorem presetBands_eight {m : RoundMode} {ps : List PresetPair} (h : ps.length = 8) :
    ∃ bands, presetBands m ps = some bands ∧
      ∀ (j : Fin 8) (p : PresetPair), ps[j.val]? = some p → bands[j] = encodePair m p := by
  refine ⟨_, by rw [presetBands, dif_pos h], fun j p hp => ?_⟩
  rw [List.getElem?_eq_some_iff] at hp
  obtain ⟨hlt, rfl⟩ := hp
  simp

theorem presetBands_other {m : RoundMode} {ps : List PresetPair} (h : ps.length ≠ 8) : presetBands m ps = none := by
  simp [presetBands, h]

/-- The CustomEq payload written out. -/
theorem customEqPayload_eq (band : Vector BandCode 8) :
    customEqPayload band =
      [(0 : Byte), band[0].g, band[0].q, 1, band[1].g, band[1].q, 2, band[2].g, band[2].q, 3, band[3].g, band[3].q,
       4, band[4].g, band[4].q, 5, band[5].g, band[5].q, 6, band[6].g, band[6].q, 7, band[7].g, band[7].q] := by
  obtain ⟨⟨l⟩, hl⟩ := band
  match l, hl with
  | [_, _, _, _, _, _, _, _], _ => rfl

end Sys2Proof.Machine
end

