-- ==== Sys2Proof/Laws/Exec.lean ====
section
/-! SUPPORT. Everything each operation can do, one lemma per meaning that has more than one case; the other meanings have one
case, by rfl. Then what every operation has in common. -/

namespace Sys2Proof.Machine

theorem exec_pushPay_cases (a : Byte) (s : State) :
    (s.pay.length = 255 ∧ exec (.pushPay a) s = .next (raise .argErr (setPayOvf s))) ∨
    (s.pay.length ≠ 255 ∧ exec (.pushPay a) s = .next (done { s with pay := s.pay ++ [a] })) := by
  rcases stage_cases Config.payMax s.pay a with ⟨h, hs⟩ | ⟨h, hs⟩
  · exact .inl ⟨h, by simp only [exec, execPushPay, hs]⟩
  · exact .inr ⟨h, by simp only [exec, execPushPay, hs]⟩

theorem exec_encode_cases (c y : Byte) (s : State) :
    (s.payOvf = true ∧ exec (.encode c y) s = .next (raise .argErr (dropPay s))) ∨
    (s.payOvf = false ∧ exec (.encode c y) s = .next (doneOut (frame c y s.pay) (dropPay s))) := by
  rcases h : s.payOvf
  · exact .inr ⟨rfl, by simp [exec, execEncode, h]⟩
  · exact .inl ⟨rfl, by simp [exec, execEncode, h]⟩

theorem exec_pushRx_cases (a : Byte) (s : State) :
    (s.rx.length = 261 ∧ exec (.pushRx a) s = .next (raise .rxOverflow (setRxOvf s))) ∨
    (s.rx.length ≠ 261 ∧ exec (.pushRx a) s = .next (done { s with rx := s.rx ++ [a] })) := by
  rcases stage_cases Config.rxMax s.rx a with ⟨h, hs⟩ | ⟨h, hs⟩
  · exact .inl ⟨h, by simp only [exec, execPushRx, hs]⟩
  · exact .inr ⟨h, by simp only [exec, execPushRx, hs]⟩

theorem exec_decode_cases (s : State) :
    (s.rxOvf = true ∧ exec .decode s = .next (respond .rxOverflow 0 unrecognizedEvt [] (dropRx s))) ∨
    (s.rxOvf = false ∧ exec .decode s = .next (respond .ok 0 (notificationEvt s.rx) [] (dropRx s))) := by
  rcases h : s.rxOvf
  · exact .inr ⟨rfl, by simp [exec, execDecode, h]⟩
  · exact .inl ⟨rfl, by simp [exec, execDecode, h]⟩

theorem exec_setBand_cases (a : Byte) (x y : Half) (s : State) :
    (7 < a.toNat ∧ exec (.setBand a x y) s = .next (raise .rangeErr s)) ∨
    (∃ i : Fin 8, i.val = a.toNat ∧
      exec (.setBand a x y) s = .next (done (writeBand i (encodePair Config.roundMode ⟨x, y⟩) s))) := by
  rcases bandIndex_cases a with ⟨i, h, hi⟩ | ⟨h, hi⟩
  · exact .inr ⟨i, h, by simp only [exec, execSetBand, hi]⟩
  · exact .inl ⟨h, by simp only [exec, execSetBand, hi]⟩

theorem exec_setBandGain_cases (a : Byte) (x : Half) (s : State) :
    (7 < a.toNat ∧ exec (.setBandGain a x) s = .next (raise .rangeErr s)) ∨
    (∃ i : Fin 8, i.val = a.toNat ∧ exec (.setBandGain a x) s =
      .next (done (writeBand i ⟨encodeGain Config.roundMode (hundredths x), s.band[i].q⟩ s))) := by
  rcases bandIndex_cases a with ⟨i, h, hi⟩ | ⟨h, hi⟩
  · exact .inr ⟨i, h, by simp only [exec, execSetBandGain, hi]⟩
  · exact .inl ⟨h, by simp only [exec, execSetBandGain, hi]⟩

theorem exec_setBandQ_cases (a : Byte) (y : Half) (s : State) :
    (7 < a.toNat ∧ exec (.setBandQ a y) s = .next (raise .rangeErr s)) ∨
    (∃ i : Fin 8, i.val = a.toNat ∧ exec (.setBandQ a y) s =
      .next (done (writeBand i ⟨s.band[i].g, encodeQ Config.roundMode (hundredths y)⟩ s))) := by
  rcases bandIndex_cases a with ⟨i, h, hi⟩ | ⟨h, hi⟩
  · exact .inr ⟨i, h, by simp only [exec, execSetBandQ, hi]⟩
  · exact .inl ⟨h, by simp only [exec, execSetBandQ, hi]⟩

theorem exec_readBand_cases (a : Byte) (s : State) :
    (7 < a.toNat ∧ exec (.readBand a) s = .next (raise .rangeErr s)) ∨
    (∃ i : Fin 8, i.val = a.toNat ∧ exec (.readBand a) s = .next (doneRes (bandWord s.band[i]) s)) := by
  rcases bandIndex_cases a with ⟨i, h, hi⟩ | ⟨h, hi⟩
  · exact .inr ⟨i, h, by simp only [exec, execReadBand, hi]⟩
  · exact .inl ⟨h, by simp only [exec, execReadBand, hi]⟩

theorem exec_stagePreset_cases (x y : Half) (s : State) :
    (s.ps.length = 8 ∧ exec (.stagePreset x y) s = .next (raise .argErr (setPsOvf s))) ∨
    (s.ps.length ≠ 8 ∧ exec (.stagePreset x y) s = .next (done { s with ps := s.ps ++ [⟨x, y⟩] })) := by
  rcases stage_cases Config.nBands s.ps ⟨x, y⟩ with ⟨h, hs⟩ | ⟨h, hs⟩
  · exact .inl ⟨h, by simp only [exec, execStagePreset, hs]⟩
  · exact .inr ⟨h, by simp only [exec, execStagePreset, hs]⟩

theorem exec_applyPreset_cases (s : State) :
    ((s.psOvf = true ∨ s.ps.length ≠ 8) ∧ exec .applyPreset s = .next (raise .argErr (dropPs s))) ∨
    (s.psOvf = false ∧ s.ps.length = 8 ∧ ∃ bands, presetBands Config.roundMode s.ps = some bands ∧
      exec .applyPreset s = .next (done (dropPs { s with band := bands }))) := by
  rcases ho : s.psOvf
  · by_cases h : s.ps.length = 8
    · obtain ⟨bands, hb, -⟩ := presetBands_eight (m := Config.roundMode) h
      exact .inr ⟨rfl, h, bands, hb, by simp [exec, execApplyPreset, ho, hb]⟩
    · exact .inl ⟨.inr h, by simp [exec, execApplyPreset, ho, presetBands_other h]⟩
  · exact .inl ⟨.inl rfl, by simp [exec, execApplyPreset, ho]⟩

theorem exec_buildSelectEq_cases (a : Byte) (s : State) :
    (¬ (1 ≤ a.toNat ∧ a.toNat ≤ 4) ∧ exec (.buildSelectEq a) s = .next (raise .rangeErr s)) ∨
    ((1 ≤ a.toNat ∧ a.toNat ≤ 4) ∧ exec (.buildSelectEq a) s =
      .next (doneOut (frame Config.cmdSelectEq Config.typeRequest [a]) s)) := by
  rw [← isPresetNumber_iff]
  by_cases h : isPresetNumber a = true
  · exact .inr ⟨h, by simp only [exec, execBuildSelectEq, if_pos h]⟩
  · exact .inl ⟨h, by simp only [exec, execBuildSelectEq, if_neg h]⟩

/-! ### Responses -/

theorem respond_onlyResponds (st : Status) (res : Half) (e : Evt) (out : List Byte) (s : State) :
    OnlyResponds s (respond st res e out s) := ⟨⟨rfl, rfl, rfl, rfl, rfl, rfl, rfl⟩, rfl⟩

theorem respond_responds (st : Status) (res : Half) (out : List Byte) (s : State) :
    Responds (respond st res noEvt out s) st res out :=
  ⟨_, rfl, rfl, rfl, rfl, rfl, rfl, rfl, rfl, rfl, rfl, plainEvt_name _ _ _, rfl⟩

theorem respond_reports (st : Status) (e : Evt) (s : State) : Reports (respond st 0 e [] s) st e :=
  ⟨_, rfl, rfl, rfl, rfl, rfl⟩

end Sys2Proof.Machine
end

