-- ==== Sys2Proof/Laws/PerInstr.lean ====
section
/-! SUPPORT. Laws that hold of every instruction, one lemma per constructor (LAWS.json). -/

namespace Sys2Proof.Laws.WordFields

/-- The word of an instruction has the `OPC` of its operation (R45), a zero `R` (R43), and a zero in every field that the
operation's format does not use (R46). -/
def Statement (i : Instr) : Prop :=
  opcOf (encode i) = i.op.opc ∧ rOf (encode i) = 0 ∧ unusedFieldsZero i.op.format (encode i) = true

theorem pushPay (a : Byte) : Statement (.pushPay a) := by
  simp [Statement, Sys2Proof.encode, Instr.op, Op.format, unusedFieldsZero, Format.usesA, Format.usesB, Format.usesX,
    Format.usesY]

theorem encode (a b : Byte) : Statement (.encode a b) := by
  simp [Statement, Sys2Proof.encode, Instr.op, Op.format, unusedFieldsZero, Format.usesA, Format.usesB, Format.usesX,
    Format.usesY]

theorem pushRx (a : Byte) : Statement (.pushRx a) := by
  simp [Statement, Sys2Proof.encode, Instr.op, Op.format, unusedFieldsZero, Format.usesA, Format.usesB, Format.usesX,
    Format.usesY]

theorem decode : Statement .decode := by
  simp [Statement, Sys2Proof.encode, Instr.op, Op.format, unusedFieldsZero, Format.usesA, Format.usesB, Format.usesX,
    Format.usesY]

theorem encGain (x : Half) : Statement (.encGain x) := by
  simp [Statement, Sys2Proof.encode, Instr.op, Op.format, unusedFieldsZero, Format.usesA, Format.usesB, Format.usesX,
    Format.usesY]

theorem decGain (a : Byte) : Statement (.decGain a) := by
  simp [Statement, Sys2Proof.encode, Instr.op, Op.format, unusedFieldsZero, Format.usesA, Format.usesB, Format.usesX,
    Format.usesY]

theorem encQ (y : Half) : Statement (.encQ y) := by
  simp [Statement, Sys2Proof.encode, Instr.op, Op.format, unusedFieldsZero, Format.usesA, Format.usesB, Format.usesX,
    Format.usesY]

theorem decQ (a : Byte) : Statement (.decQ a) := by
  simp [Statement, Sys2Proof.encode, Instr.op, Op.format, unusedFieldsZero, Format.usesA, Format.usesB, Format.usesX,
    Format.usesY]

theorem setBand (a : Byte) (x y : Half) : Statement (.setBand a x y) := by
  simp [Statement, Sys2Proof.encode, Instr.op, Op.format, unusedFieldsZero, Format.usesA, Format.usesB, Format.usesX,
    Format.usesY]

theorem setBandGain (a : Byte) (x : Half) : Statement (.setBandGain a x) := by
  simp [Statement, Sys2Proof.encode, Instr.op, Op.format, unusedFieldsZero, Format.usesA, Format.usesB, Format.usesX,
    Format.usesY]

theorem setBandQ (a : Byte) (y : Half) : Statement (.setBandQ a y) := by
  simp [Statement, Sys2Proof.encode, Instr.op, Op.format, unusedFieldsZero, Format.usesA, Format.usesB, Format.usesX,
    Format.usesY]

theorem readBand (a : Byte) : Statement (.readBand a) := by
  simp [Statement, Sys2Proof.encode, Instr.op, Op.format, unusedFieldsZero, Format.usesA, Format.usesB, Format.usesX,
    Format.usesY]

theorem stagePreset (x y : Half) : Statement (.stagePreset x y) := by
  simp [Statement, Sys2Proof.encode, Instr.op, Op.format, unusedFieldsZero, Format.usesA, Format.usesB, Format.usesX,
    Format.usesY]

theorem applyPreset : Statement .applyPreset := by
  simp [Statement, Sys2Proof.encode, Instr.op, Op.format, unusedFieldsZero, Format.usesA, Format.usesB, Format.usesX,
    Format.usesY]

theorem resetEq : Statement .resetEq := by
  simp [Statement, Sys2Proof.encode, Instr.op, Op.format, unusedFieldsZero, Format.usesA, Format.usesB, Format.usesX,
    Format.usesY]

theorem eqPayload : Statement .eqPayload := by
  simp [Statement, Sys2Proof.encode, Instr.op, Op.format, unusedFieldsZero, Format.usesA, Format.usesB, Format.usesX,
    Format.usesY]

theorem buildSelectEq (a : Byte) : Statement (.buildSelectEq a) := by
  simp [Statement, Sys2Proof.encode, Instr.op, Op.format, unusedFieldsZero, Format.usesA, Format.usesB, Format.usesX,
    Format.usesY]

theorem buildCustomEq : Statement .buildCustomEq := by
  simp [Statement, Sys2Proof.encode, Instr.op, Op.format, unusedFieldsZero, Format.usesA, Format.usesB, Format.usesX,
    Format.usesY]

theorem buildDevinfoReq : Statement .buildDevinfoReq := by
  simp [Statement, Sys2Proof.encode, Instr.op, Op.format, unusedFieldsZero, Format.usesA, Format.usesB, Format.usesX,
    Format.usesY]

theorem clear : Statement .clear := by
  simp [Statement, Sys2Proof.encode, Instr.op, Op.format, unusedFieldsZero, Format.usesA, Format.usesB, Format.usesX,
    Format.usesY]

end Sys2Proof.Laws.WordFields
end

