-- ==== Sys2Proof/Tests/Slice0.lean ====
section
/-! SUPPORT. Tests, each expected result from the spec: the words of 30_encoding.md R45 written out, the examples and corner
cases of the rules, and the vectors of 95_test_vectors.md (their ids stand in the docstrings). After them, for every statement
with hypotheses a witness that meets them. -/

namespace Sys2Proof.Tests

open Sys2Proof Sys2Proof.Machine

/-- The next state of an outcome. -/
def nextState? : Result → Option State
  | .next t => some t
  | .fault _ => none
  | .refused _ => none

/-- The response to one command word. -/
def answer (w : Word) (s : State) : Option Response := (nextState? (stepWord w s)).bind (·.resp)

/-- One field of the state after one command word. -/
def after {α : Type} (f : State → α) (w : Word) (s : State) : Option α := (nextState? (stepWord w s)).map f

/-- The event of DECODE on a notification. -/
def eventOf (b : List Byte) : Option Evt :=
  (answer 0x0400000000000000 { State.reset with rx := b }).map (·.evt)

/-- The name that DECODE reports for an info payload, as `name_len` and its bytes. -/
def nameOf (p : List Byte) : Option (Nat × List Byte) :=
  (eventOf ([0x51, 0x58, 0x57, 0x27, 0x02] ++ p)).map (fun e => (e.nameLen.toNat, e.name.toList.take e.nameLen.toNat))

/-! ### Decoding: words written out from R43 and R45 -/

theorem test_decode_pushPay : decode 0x01AA000000000000 = .ok (.pushPay 0xAA) := by decide
theorem test_decode_encode : decode 0x0220030000000000 = .ok (.encode 0x20 0x03) := by decide
theorem test_decode_pushRx : decode 0x0351000000000000 = .ok (.pushRx 0x51) := by decide
theorem test_decode_decode : decode 0x0400000000000000 = .ok .decode := by decide
theorem test_decode_encGain : decode 0x10000000FAEC0000 = .ok (.encGain (BitVec.ofInt 16 (-1300))) := by decide
theorem test_decode_decGain : decode 0x1177000000000000 = .ok (.decGain 119) := by decide
theorem test_decode_encQ : decode 0x120000000000FF9C = .ok (.encQ (BitVec.ofInt 16 (-100))) := by decide
theorem test_decode_decQ : decode 0x1307000000000000 = .ok (.decQ 7) := by decide
theorem test_decode_setBand : decode 0x200700007FFF8000 = .ok (.setBand 7 0x7FFF 0x8000) := by decide
theorem test_decode_setBandGain : decode 0x21030000FB500000 = .ok (.setBandGain 3 (BitVec.ofInt 16 (-1200))) := by decide
theorem test_decode_setBandQ : decode 0x220700000000008D = .ok (.setBandQ 7 141) := by decide
theorem test_decode_readBand : decode 0x2305000000000000 = .ok (.readBand 5) := by decide
theorem test_decode_stagePreset : decode 0x240000000258008D = .ok (.stagePreset 600 141) := by decide
theorem test_decode_applyPreset : decode 0x2500000000000000 = .ok .applyPreset := by decide
theorem test_decode_resetEq : decode 0x2600000000000000 = .ok .resetEq := by decide
theorem test_decode_eqPayload : decode 0x2700000000000000 = .ok .eqPayload := by decide
theorem test_decode_buildSelectEq : decode 0x3004000000000000 = .ok (.buildSelectEq 4) := by decide
theorem test_decode_buildCustomEq : decode 0x3100000000000000 = .ok .buildCustomEq := by decide
theorem test_decode_buildDevinfoReq : decode 0x3200000000000000 = .ok .buildDevinfoReq := by decide
theorem test_decode_clear : decode 0x3F00000000000000 = .ok .clear := by decide

/-- V-E12: an out-of-range index is a legal word. -/
theorem test_decode_setBand_out_of_range : decode 0x20080000FFFF0000 = .ok (.setBand 8 0xFFFF 0) := by decide

/-- The encoder writes the words of the spec's examples (R48, V-C8, V-Q13). -/
theorem test_encode_words :
    encode (.encGain 600) = 0x1000000002580000 ∧ encode (.setBand 0 600 70) = 0x2000000002580046 ∧
    encode (.encode 0x20 0x03) = 0x0220030000000000 ∧ encode (.stagePreset 1400 0xFFF6) = 0x240000000578FFF6 := by decide

/-- V-E1, V-E2, V-E3: `OPC` is none of the 20 values. -/
theorem test_reject_opcode :
    decode 0x0000000000000000 = .error .unassignedOpcode ∧ decode 0xFF00000000000000 = .error .unassignedOpcode ∧
    decode 0x0500000000000000 = .error .unassignedOpcode := by decide

/-- V-E4 and program P4: `R` is not 0. -/
theorem test_reject_reserved :
    decode 0x1000000100000000 = .error .reservedNonzero ∧ decode 0x0210010100000000 = .error .reservedNonzero := by decide

/-- V-E5, V-E6, V-E9, V-E10: an unused `Y`, `A`, `X`; and an unused `B` (R47). -/
theorem test_reject_unused :
    decode 0x1000000000000001 = .error .unusedFieldNonzero ∧ decode 0x1001000002580000 = .error .unusedFieldNonzero ∧
    decode 0x0210010000010000 = .error .unusedFieldNonzero ∧ decode 0x3F00000000000001 = .error .unusedFieldNonzero ∧
    decode 0x0401000000000000 = .error .unusedFieldNonzero ∧ decode 0x2000010002580046 = .error .unusedFieldNonzero := by
  decide

/-- The host's numbering of a row's bits is the word's. -/
theorem test_decodeTableWord :
    decodeTableWord 64 0x2000000002580046 = some (.setBand 0 600 70) ∧ decodeTableWord 64 0 = none := by decide

/-! ### Well-formedness: an ill-formed term for each check -/

/-- The mask and match rows refuse an unassigned `OPC`, a nonzero `R`, and each unused field. -/
theorem test_illformed_words :
    wordWellFormed 0x0500000000000000 = false ∧ wordWellFormed 0x1000000100000000 = false ∧
    wordWellFormed 0x1001000002580000 = false ∧ wordWellFormed 0x0107010000000000 = false ∧
    wordWellFormed 0x1200000000010000 = false ∧ wordWellFormed 0x1000000000000001 = false := by decide

theorem test_wellformed_words :
    wordWellFormed 0x20080000FFFF0000 = true ∧ wordWellFormed 0x3F00000000000000 = true := by decide

/-- R48: `A` above 255 or below 0, `B` above 255, `X` and `Y` out of range or in hex. -/
theorem test_illformed_operands :
    (AsmLine.op .pushPay [.dec 256]).wellFormed = false ∧ (AsmLine.op .pushPay [.dec (-1)]).wellFormed = false ∧
    (AsmLine.op .encode [.hex 0x10, .hex 0x100]).wellFormed = false ∧
    (AsmLine.op .encGain [.dec 32768]).wellFormed = false ∧ (AsmLine.op .encGain [.hex 0x258]).wellFormed = false ∧
    (AsmLine.op .encQ [.dec (-32769)]).wellFormed = false := by decide

/-- R48: too few and too many operands. R48, R49: a `.word` in decimal or above 64 bits; FRAME without a type; a byte above
255 in FRAME and in RECV; a PRESET with half a pair, and with a Q out of range. -/
theorem test_illformed_lines :
    (AsmLine.op .setBand [.dec 0, .dec 600]).wellFormed = false ∧ (AsmLine.op .clear [.dec 0]).wellFormed = false ∧
    (AsmLine.word (.dec 0)).wellFormed = false ∧ (AsmLine.word (.hex 0x10000000000000000)).wellFormed = false ∧
    (AsmLine.frame [.hex 0x27]).wellFormed = false ∧ (AsmLine.frame [.hex 0x27, .hex 1, .dec 256]).wellFormed = false ∧
    (AsmLine.recv [.dec 256]).wellFormed = false ∧ (AsmLine.preset [.dec 0]).wellFormed = false ∧
    (AsmLine.preset [.dec 0, .dec 32768]).wellFormed = false := by decide

/-! ### The assembler (R48, R49) -/

/-- The example of R48. -/
theorem test_assemble_setBand : assembleLine "SET_BAND 0, 600, 70".toList = some [0x2000000002580046] := by decide

/-- V-Q5, with a comment. -/
theorem test_assemble_negative :
    assembleLine "SET_BAND_GAIN 3, -1200 ; minus 12 dB".toList = some [0x21030000FB500000] := by decide

/-- R48's field order in the formats with two byte fields and with three fields: V-C4's ENCODE and V-Q4's SET_BAND. -/
theorem test_line_field_order :
    lineWords (.op .encode [.hex 0x20, .hex 0x03]) = some [0x0220030000000000] ∧
    lineWords (.op .setBand [.dec 7, .dec 32767, .dec (-32768)]) = some [0x200700007FFF8000] := by decide

/-- V-D3's RECV and two pairs of V-Q13's PRESET, by R49's expansions. -/
theorem test_line_recv_and_preset :
    lineWords (.recv [.hex 0x51, .dec 1]) = some [0x0351000000000000, 0x0301000000000000, 0x0400000000000000] ∧
    lineWords (.preset [.dec 600, .dec 141, .dec 1400, .dec (-10)]) =
      some [0x240000000258008D, 0x240000000578FFF6, 0x2500000000000000] := by decide

/-- Program P4: the word that no mnemonic writes; V-C2: FRAME is a push and ENCODE. -/
theorem test_assemble_word_and_frame :
    assembleLine ".word 0x0210010100000000".toList = some [0x0210010100000000] ∧
    assembleLine "FRAME 0x10, 0x01, 4".toList = some [0x0104000000000000, 0x0210010000000000] := by decide

/-- R48: an operand out of its range is refused. -/
theorem test_assemble_refuses : assembleLine "ENC_GAIN 32768".toList = none ∧ assembleLine "NOP".toList = none := by decide

/-! ### PacketCodec -/

/-- V-C5. -/
theorem test_pushPay : after (·.pay) 0x01AA000000000000 State.reset = some [0xAA] := by decide

set_option maxRecDepth 4000 in
/-- V-C7: the 256th byte is refused. -/
theorem test_pushPay_full :
    after (fun t => (t.payOvf, t.pay.length, t.resp.map (·.status))) 0x01BB000000000000
      { State.reset with pay := List.replicate 255 0xAA } = some (true, 255, some .argErr) := by decide

/-- V-C4, and that ENCODE empties `pay`. -/
theorem test_encode :
    after (fun t => (t.pay, t.resp.map (·.out))) 0x0220030000000000 { State.reset with pay := [0x00, 0xB4, 0x07] } =
      some ([], some [0x51, 0x58, 0x57, 0x20, 0x03, 0x03, 0x00, 0xB4, 0x07]) := by decide

/-- V-C8: a payload above 255 bytes fails and is consumed. -/
theorem test_encode_overflow :
    after (fun t => (t.pay, t.payOvf, t.resp.map (fun r => (r.status, r.out)))) 0x0220030000000000
      { State.reset with pay := List.replicate 255 0xAA, payOvf := true } = some ([], false, some (.argErr, [])) := by decide

/-- R52's example. -/
theorem test_pushRx : after (·.rx) 0x0351000000000000 State.reset = some [0x51] := by decide

set_option maxRecDepth 4000 in
/-- V-D18: the 262nd byte is refused. -/
theorem test_pushRx_full :
    after (fun t => (t.rxOvf, t.rx.length, t.resp.map (·.status))) 0x0300000000000000
      { State.reset with rx := List.replicate 261 0 } = some (true, 261, some .rxOverflow) := by decide

/-- W9: an unknown code, with the raw view. -/
theorem test_decode_unknown_code :
    (eventOf [0x51, 0x58, 0x57, 0x99, 0x01, 0x00]).map (fun e => (e.kind, e.codeValid, e.code, e.raw)) =
      some (.unrecognized, true, 0x99, ⟨true, 0x99, 0x01, 0, []⟩) := by decide

/-- W13: the DeviceInfo response of FB §8. -/
theorem test_decode_deviceInfo :
    (eventOf [0x51, 0x58, 0x57, 0x27, 0x02, 0x01, 0x03, 0x64, 0x64, 0x00, 0x05, 0x48, 0x65, 0x6C, 0x6C, 0x6F]).map
      (fun e => (e.kind, e.battL, e.battR, e.nameLen, e.name.toList.take 6)) =
      some (.deviceInfo, 100, 100, 5, [0x48, 0x65, 0x6C, 0x6C, 0x6F, 0]) := by decide

/-! ### DeviceInfoParser, by way of DECODE -/

/-- V-D10, V-D11: 4 info bytes are a format error, 5 are a DeviceInfo with an empty name. -/
theorem test_devinfo_length :
    (eventOf [0x51, 0x58, 0x57, 0x27, 0x02, 0x01, 0x03, 0x64, 0x64]).map (·.kind) = some .formatError ∧
    (eventOf [0x51, 0x58, 0x57, 0x27, 0x02, 0x01, 0x03, 0x64, 0x64, 0x00]).map (·.kind) = some .deviceInfo := by decide

/-- V-N8, V-N7, V-N11: the rightmost candidate wins; 0x7F is not printable; 0x20 and 0x7E are. -/
theorem test_name_scan :
    nameOf [0x01, 0x03, 0x64, 0x64, 0x00, 0x02, 0x48, 0x65, 0x01, 0x6F] = some (1, [0x6F]) ∧
    nameOf [0x01, 0x03, 0x64, 0x64, 0x00, 0x03, 0x48, 0x7F, 0x65] = some (0, []) ∧
    nameOf [0x01, 0x03, 0x64, 0x64, 0x00, 0x02, 0x20, 0x7E] = some (2, [0x20, 0x7E]) := by decide

/-- V-N5, V-N10: a length of 32 is refused, of 31 accepted. -/
theorem test_name_scan_length :
    nameOf ([0x01, 0x03, 0x64, 0x64, 0x00, 0x20] ++ List.replicate 32 0x41) = some (0, []) ∧
    nameOf ([0x01, 0x03, 0x64, 0x64, 0x00, 0x1F] ++ List.replicate 31 0x48) = some (31, List.replicate 31 0x48) := by decide

/-! ### GainQParam -/

/-- V-G17, V-G10, V-G2, V-G19. -/
theorem test_encGain :
    (answer 0x1000000002580000 State.reset).map (·.res) = some 0x00B4 ∧
    (answer 0x10000000FFFB0000 State.reset).map (·.res) = some 119 ∧
    (answer 0x10000000FAEC0000 State.reset).map (·.res) = some 0 ∧
    (answer 0x1000000005410000 State.reset).map (·.res) = some 255 := by decide

/-- V-G41, V-G46. -/
theorem test_decGain :
    (answer 0x1177000000000000 State.reset).map (·.res) = some 0xFFF6 ∧
    (answer 0x11FF000000000000 State.reset).map (·.res) = some 0x0546 := by decide

/-- V-G32, V-G28, V-G24. -/
theorem test_encQ :
    (answer 0x1200000000000046 State.reset).map (·.res) = some 7 ∧
    (answer 0x1200000000000005 State.reset).map (·.res) = some 1 ∧
    (answer 0x1200000000008000 State.reset).map (·.res) = some 0 := by decide

/-- V-G48, V-G50. -/
theorem test_decQ :
    (answer 0x1307000000000000 State.reset).map (·.res) = some 0x0046 ∧
    (answer 0x13FF000000000000 State.reset).map (·.res) = some 0x09F6 := by decide

/-- V-G8, V-G10, V-G14, V-G35 under the other tie rule, and V-G9 under both. -/
theorem test_half_even :
    encodeGain .halfEven (-25) = 118 ∧ encodeGain .halfEven (-5) = 120 ∧ encodeGain .halfEven 5 = 120 ∧
    encodeQ .halfEven 2545 = 254 ∧ encodeGain .halfEven (-15) = 118 ∧ encodeGain .halfAway (-15) = 118 := by decide

/-! ### EqState -/

/-- V-Q1, V-Q4. -/
theorem test_setBand :
    after (fun t => (t.band[0], t.band[1])) 0x2000000002580046 State.reset = some (⟨0xB4, 7⟩, ⟨120, 7⟩) ∧
    after (fun t => (t.band[6], t.band[7])) 0x200700007FFF8000 State.reset = some (⟨120, 7⟩, ⟨0xFF, 0⟩) := by decide

/-- V-Q2. -/
theorem test_setBand_range :
    after (fun t => (t.band, t.resp.map (·.status))) 0x2008000002580046 State.reset =
      some (State.reset.band, some .rangeErr) := by decide

/-- V-Q5. -/
theorem test_setBandGain : after (·.band[3]) 0x21030000FB500000 State.reset = some ⟨0, 7⟩ := by decide

/-- V-Q6. -/
theorem test_setBandQ : after (·.band[7]) 0x220700000000008D State.reset = some ⟨120, 14⟩ := by decide

/-- V-Q8, V-Q9: `READ_BAND 0` after reset and after `SET_BAND 0, 600, 70`. -/
theorem test_readBand :
    (answer 0x2300000000000000 State.reset).map (·.res) = some 0x7807 ∧
    (answer 0x2300000000000000 (writeBand 0 ⟨0xB4, 7⟩ State.reset)).map (·.res) = some 0xB407 := by decide

/-- R71's example, and that a ninth pair is refused (V-Q12). -/
theorem test_stagePreset :
    after (·.ps) 0x2400000000000046 State.reset = some [⟨0, 70⟩] ∧
    after (fun t => (t.psOvf, t.ps.length)) 0x2400000000000046 { State.reset with ps := List.replicate 8 ⟨0, 70⟩ } =
      some (true, 8) := by decide

/-- The pairs of V-Q13. -/
def presetV13 : List PresetPair :=
  [⟨0xFAEC, 70⟩, ⟨0xFB50, 5⟩, ⟨0xFFFB, 10⟩, ⟨0, 70⟩, ⟨5, 2545⟩, ⟨600, 141⟩, ⟨1345, 0⟩, ⟨1400, 0xFFF6⟩]

/-- V-Q13. -/
theorem test_applyPreset :
    after (fun t => (t.band.toList, t.ps)) 0x2500000000000000 { State.reset with ps := presetV13 } =
      some ([⟨0, 7⟩, ⟨0, 1⟩, ⟨0x77, 1⟩, ⟨0x78, 7⟩, ⟨0x79, 0xFF⟩, ⟨0xB4, 0x0E⟩, ⟨0xFF, 0⟩, ⟨0xFF, 0⟩], []) := by decide

/-- V-Q11: seven pairs fail and are consumed. -/
theorem test_applyPreset_seven :
    after (fun t => (t.band, t.ps, t.resp.map (·.status))) 0x2500000000000000 { State.reset with ps := presetV13.take 7 } =
      some (State.reset.band, [], some .argErr) := by decide

/-- V-Q15: the bands at the default, `ps` kept. -/
theorem test_resetEq :
    after (fun t => (t.band[0], t.ps)) 0x2600000000000000
      { writeBand 0 ⟨0xB4, 7⟩ State.reset with ps := [⟨1, 1⟩] } = some (⟨120, 7⟩, [⟨1, 1⟩]) := by decide

/-- W7. -/
theorem test_eqPayload :
    (answer 0x2700000000000000 (writeBand 0 ⟨0xB4, 7⟩ State.reset)).map (·.out) =
      some [0x00, 0xB4, 0x07, 0x01, 0x78, 0x07, 0x02, 0x78, 0x07, 0x03, 0x78, 0x07, 0x04, 0x78, 0x07, 0x05, 0x78, 0x07,
        0x06, 0x78, 0x07, 0x07, 0x78, 0x07] := by decide

/-! ### Frame builders and control -/

/-- V-B4, V-B5, V-B6. -/
theorem test_buildSelectEq :
    (answer 0x3004000000000000 State.reset).map (·.out) = some [0x51, 0x58, 0x57, 0x10, 0x01, 0x01, 0x04] ∧
    (answer 0x3000000000000000 State.reset).map (·.status) = some .rangeErr ∧
    (answer 0x3005000000000000 State.reset).map (·.status) = some .rangeErr := by decide

/-- V-B7. -/
theorem test_buildCustomEq :
    (answer 0x3100000000000000 State.reset).map (·.out) =
      some [0x51, 0x58, 0x57, 0x20, 0x03, 0x18, 0x00, 0x78, 0x07, 0x01, 0x78, 0x07, 0x02, 0x78, 0x07, 0x03, 0x78, 0x07,
        0x04, 0x78, 0x07, 0x05, 0x78, 0x07, 0x06, 0x78, 0x07, 0x07, 0x78, 0x07] := by decide

/-- V-B8; V-B9: the staged payload stays. -/
theorem test_buildDevinfoReq :
    after (fun t => (t.pay, t.resp.map (·.out))) 0x3200000000000000 { State.reset with pay := [9] } =
      some ([9], some [0x51, 0x58, 0x57, 0x27, 0x01, 0x00]) := by decide

/-- V-K1. -/
theorem test_clear :
    after (fun t => (t.pay, t.rx, t.ps, t.band[1])) 0x3F00000000000000
      { writeBand 1 ⟨0x82, 0x0A⟩ State.reset with pay := [1], rx := [2], ps := [⟨3, 4⟩] } =
      some ([], [], [], ⟨0x82, 0x0A⟩) := by decide

/-- V-E7: an illegal word consumes nothing. -/
theorem test_illegal_word :
    after (fun t => (t.rx, t.resp.map (·.status))) 0x0401000000000000 { State.reset with rx := [0x51] } =
      some ([0x51], some .illegalOp) := by decide

/-- The codes of R23 on the `status` port, and of R25 on the `evt` port: ILLEGAL_OP 3, RX_OVERFLOW 4; PRESET_CONFIRMED 1,
UNRECOGNIZED 4. -/
theorem test_port_codes :
    (answer 0 State.reset).map (·.status.code) = some 3 ∧
    (answer 0x0400000000000000 { State.reset with rxOvf := true }).map (·.status.code) = some 4 ∧
    (eventOf [0x51, 0x58, 0x57, 0x10, 0x01]).map (·.kind.code) = some 1 ∧
    (eventOf []).map (·.kind.code) = some 4 := by decide

/-! ### The step -/

/-- The word stored for the next step is performed by it, first after reset (R29, R100). -/
theorem test_step_first_word :
    (nextState? (step (State.reset.withFetchWord 64 0x01AA000000000000))).map (fun t => (t.pay, t.inputs)) =
      some ([0xAA], []) := by decide

/-- R100: `rst` leaves the reset state, and what the host presents next. -/
theorem test_step_rst :
    nextState? (step { State.reset with pay := [1], rxOvf := true, inputs := [.rst, .command 0] }) =
      some { State.reset with inputs := [.command 0] } := by decide

/-! ### Witnesses: for each statement of Obligations.lean with hypotheses, terms that meet them, clause by clause -/

/-- A legal state with something in every field. -/
def sample : State :=
  { writeBand 0 ⟨0xB4, 7⟩ State.reset with pay := [9], rx := [0x51], ps := [⟨3, 4⟩], inputs := [.command 0x0107000000000000] }

/-- 255 bytes, the fullest `pay`. -/
def fullPay : State := { State.reset with pay := List.replicate 255 0xAA }

/-- 261 bytes, the fullest `rx`. -/
def fullRx : State := { State.reset with rx := List.replicate 261 0 }

/-- 8 pairs, the fullest `ps`. -/
def fullPs : State := { State.reset with ps := presetV13 }

theorem witness_RstSetsEveryFieldToItsResetValue :
    ({ sample with inputs := [.rst, .command 0x0107000000000000] } : State).inputs =
      .rst :: [.command 0x0107000000000000] := rfl

theorem witness_StepRunsTheDecodedWord :
    sample.inputs = .command 0x0107000000000000 :: [] ∧ decode 0x0107000000000000 = .ok (.pushPay 7) ∧
    decode (tableWord 64 0x0107000000000000) = .ok (.pushPay 7) := by decide

theorem witness_IllegalWordOnlyAnswersIllegalOp :
    ({ sample with inputs := [.command 0] } : State).inputs = .command 0 :: [] ∧
    decode 0 = .error .unassignedOpcode := by decide

theorem witness_BlockIdlesWithoutInput : State.reset.inputs = [] := rfl

theorem witness_sample_legal : sample.Legal := by
  refine ⟨by decide, ?_⟩
  intro r hr
  cases hr

theorem witness_StepKeepsStateLegal :
    sample.Legal ∧
    step sample = .next (done { sample with pay := [9, 7], inputs := [] }) :=
  ⟨witness_sample_legal, rfl⟩

theorem witness_OperationsReadNoPort :
    exec (.pushPay 7) sample = .next (done { sample with pay := [9, 7] }) := rfl

theorem witness_OutPortDeliversBytesWithLastMarker :
    (outBeats [0x51, 0x58])[0]? = some (0x51, false) ∧ (outBeats [0x51, 0x58])[1]? = some (0x58, true) := by decide

/-- Each of the five operations, a command word, and `rst`, each changing `band`. -/
theorem witness_OnlyEqOperationsAndResetWriteBand :
    (∀ i ∈ [Instr.setBand 7 600 70, .setBandGain 7 600, .setBandQ 7 141],
      ∃ t, exec i State.reset = .next t ∧ t.band ≠ State.reset.band) ∧
    (∃ t, exec .applyPreset fullPs = .next t ∧ t.band ≠ fullPs.band) ∧
    (∃ t, exec .resetEq sample = .next t ∧ t.band ≠ sample.band) ∧
    (∃ t, step { sample with inputs := [.command 0x2600000000000000] } = .next t ∧ t.band ≠ sample.band) ∧
    (∃ t, step { sample with inputs := [.rst] } = .next t ∧ t.band ≠ sample.band) := by
  refine ⟨?_, ⟨_, rfl, by decide⟩, ⟨_, rfl, by decide⟩, ⟨_, rfl, by decide⟩, ⟨_, rfl, by decide⟩⟩
  intro i hi
  simp only [List.mem_cons, List.not_mem_nil, or_false] at hi
  rcases hi with rfl | rfl | rfl <;> exact ⟨_, rfl, by decide⟩

set_option maxRecDepth 8000 in
/-- Each flag is set, and each is cleared. -/
theorem witness_FlagsChangeOnlyWithTheirBuffer :
    (fullPay.payOvf = false ∧ ∃ t, exec (.pushPay 1) fullPay = .next t ∧ t.payOvf = true) ∧
    (∃ t, exec (.encode 0x20 3) { fullPay with payOvf := true } = .next t ∧ t.payOvf = false) ∧
    (fullRx.rxOvf = false ∧ ∃ t, exec (.pushRx 1) fullRx = .next t ∧ t.rxOvf = true) ∧
    (∃ t, exec .decode { fullRx with rxOvf := true } = .next t ∧ t.rxOvf = false) ∧
    (fullPs.psOvf = false ∧ ∃ t, exec (.stagePreset 1 1) fullPs = .next t ∧ t.psOvf = true) ∧
    (∃ t, exec .applyPreset { fullPs with psOvf := true } = .next t ∧ t.psOvf = false) :=
  ⟨⟨rfl, _, rfl, rfl⟩, ⟨_, rfl, rfl⟩, ⟨rfl, _, rfl, rfl⟩, ⟨_, rfl, rfl⟩, ⟨rfl, _, rfl, rfl⟩, ⟨_, rfl, rfl⟩⟩

theorem witness_ReadsChangeNothingAndRepeat :
    (Instr.readBand 7).op = .readBand ∧ Instr.eqPayload.op = .eqPayload ∧ Instr.buildCustomEq.op = .buildCustomEq ∧
    (Instr.encGain 0).op = .encGain ∧ (Instr.decGain 0).op = .decGain ∧ (Instr.encQ 0).op = .encQ ∧
    (Instr.decQ 0).op = .decQ := by decide

theorem witness_EncodeOfDecodeIsTheWord : decode 0x20080000FFFF0000 = .ok (.setBand 8 0xFFFF 0) := by decide

/-- A word that a row matches, and one that none does. -/
theorem witness_DecodesToOpIffTableRowMatches :
    (∃ r ∈ opcodeRows, (0x20080000FFFF0000 : Word) &&& r.mask = r.matchBits) ∧
    ∀ r ∈ opcodeRows, (0 : Word) &&& r.mask ≠ r.matchBits := by decide

/-- For `WordsDecodeTo` in each operation's statement: every row matches the word that is its own match value. -/
theorem witness_WordsDecodeTo : ∀ r ∈ opcodeRows, r.matchBits &&& r.mask = r.matchBits := by decide

/-- A word on each ground alone, and a legal one. -/
theorem witness_WordIsIllegalOnExactlyThreeGrounds :
    decode 0x0500000000000000 = .error .unassignedOpcode ∧ decode 0x10000001FFFF0000 = .error .reservedNonzero ∧
    decode 0x1001000002580000 = .error .unusedFieldNonzero ∧ decode 0x0107010000000000 = .error .unusedFieldNonzero ∧
    decode 0x1200000000010046 = .error .unusedFieldNonzero ∧ decode 0x1000000000000001 = .error .unusedFieldNonzero ∧
    decode 0x13FF000000000000 = .ok (.decQ 255) := by decide

/-- A line of each format at the bounds of R48, the first clause; and a line that presents a word, the second. -/
theorem witness_AssemblerLinesWriteExactlyTheOperations :
    LineOperands Op.clear.format [] 0 0 0 0 ∧ LineOperands Op.pushPay.format [.dec 255] 255 0 0 0 ∧
    LineOperands Op.encode.format [.hex 0xFF, .dec 0] 255 0 0 0 ∧
    LineOperands Op.encGain.format [.dec (-32768)] 0 0 (-32768) 0 ∧
    LineOperands Op.encQ.format [.dec 32767] 0 0 0 32767 ∧
    LineOperands Op.setBandGain.format [.dec 7, .dec (-5)] 7 0 (-5) 0 ∧
    LineOperands Op.setBandQ.format [.dec 8, .dec 5] 8 0 0 5 ∧
    LineOperands Op.setBand.format [.dec 0, .dec (-32768), .dec 32767] 0 0 (-32768) 32767 ∧
    LineOperands Op.stagePreset.format [.dec 0, .dec 70] 0 0 0 70 ∧
    lineWords (.op .encode [.hex 0x10, .dec 1]) = some [0x0210010000000000] :=
  ⟨.none, .a (by decide), .ab (by decide) (by decide), .x (by decide), .y (by decide), .ax (by decide) (by decide),
    .ay (by decide) (by decide), .axy (by decide) (by decide) (by decide), .xy (by decide) (by decide), by decide⟩

/-- The largest word; literals in both notations; pairs at both ends; and a line of each kind that presents words. -/
theorem witness_PseudoLinesPresentTheirExpansions :
    (18446744073709551615 : Nat) < 2 ^ 64 ∧
    ByteLiteral (.hex 0x27) 39 ∧ List.Forall₂ ByteLiteral [.dec 0, .hex 0xFF] [0, 255] ∧
    (∀ v ∈ [((-32768 : Int), (32767 : Int))], -32768 ≤ v.1 ∧ v.1 ≤ 32767 ∧ -32768 ≤ v.2 ∧ v.2 ≤ 32767) ∧
    lineWords (.word (.hex 0)) ≠ none ∧ lineWords (.frame [.hex 0x27, .dec 1]) ≠ none ∧ lineWords (.recv []) ≠ none ∧
    lineWords (.preset [.dec 0, .dec 70]) ≠ none :=
  ⟨by decide, by decide, .cons (by decide) (.cons (by decide) .nil), by decide, by decide, by decide, by decide, by decide⟩

theorem witness_PortCodesAreThoseOfTheSpec :
    (∃ t r, exec .clear State.reset = .next t ∧ t.resp = some r ∧ Instr.clear ≠ .decode) ∧
    (∃ t r, exec .decode State.reset = .next t ∧ t.resp = some r) :=
  ⟨⟨_, _, rfl, rfl, by decide⟩, _, _, rfl, rfl⟩

theorem witness_PushPayAppendsOrRefuses :
    ({ State.reset with pay := List.replicate 254 0 } : State).pay.length ≠ 255 ∧ fullPay.pay.length = 255 := by
  have h : ({ State.reset with pay := List.replicate 254 0 } : State).pay.length = 254 := List.length_replicate
  exact ⟨by rw [h]; decide, List.length_replicate⟩

theorem witness_EncodeEmitsTheFrameOrFails :
    (State.reset.BuffersLegal ∧ State.reset.payOvf = false) ∧ (fullPay.BuffersLegal ∧ fullPay.payOvf = false) ∧
    (({ fullPay with payOvf := true } : State).BuffersLegal ∧ ({ fullPay with payOvf := true } : State).payOvf = true) := by
  have h : fullPay.pay.length = 255 := List.length_replicate
  have hl : fullPay.pay.length ≤ 255 := le_of_eq h
  exact ⟨⟨by decide, rfl⟩,
    ⟨⟨hl, nofun, by decide, nofun, by decide, nofun⟩, rfl⟩, ⟨⟨hl, fun _ => h, by decide, nofun, by decide, nofun⟩, rfl⟩⟩

theorem witness_PushRxAppendsOrRefuses :
    ({ State.reset with rx := List.replicate 260 0 } : State).rx.length ≠ 261 ∧ fullRx.rx.length = 261 := by
  have h : ({ State.reset with rx := List.replicate 260 0 } : State).rx.length = 260 := List.length_replicate
  exact ⟨by rw [h]; decide, List.length_replicate⟩

theorem witness_DecodeReportsTheNotification :
    sample.rxOvf = false ∧ ({ fullRx with rxOvf := true } : State).rxOvf = true := by decide

/-- 4 bytes; 5 bytes without the magic; 5 bytes with each command code; info payloads of 4 and of 5 bytes. -/
theorem witness_ClassificationFollowsTheBytes :
    ([0x51, 0x58, 0x57, 0x10] : List Byte).length < 5 ∧
    ([0x51, 0x58, 0x56, 0x10, 0x01] : List Byte).take 3 ≠ [0x51, 0x58, 0x57] ∧
    (∀ c ∈ [(0x10 : Byte), 0x20, 0x27, 0x99], ([0x51, 0x58, 0x57, c, 0x02] : List Byte).take 3 = [0x51, 0x58, 0x57] ∧
      ([0x51, 0x58, 0x57, c, 0x02] : List Byte)[3]? = some c ∧ ([0x51, 0x58, 0x57, c, 0x02] : List Byte)[4]? = some 0x02) ∧
    ([0x51, 0x58, 0x57, 0x27, 0x01] : List Byte)[4]? ≠ some 0x02 ∧
    ([0x51, 0x58, 0x57, 0x27, 0x02, 1, 3, 100, 100] : List Byte).length - 5 < 5 ∧
    5 ≤ ([0x51, 0x58, 0x57, 0x27, 0x02, 1, 3, 100, 100, 0] : List Byte).length - 5 := by decide

/-- A frame with an empty payload, one with one byte, and one a byte too long. -/
theorem witness_RawViewNeedsTheExactLength :
    (([0x51, 0x58, 0x57, 0x99, 0x01, 0] : List Byte).take 3 = [0x51, 0x58, 0x57] ∧
      ([0x51, 0x58, 0x57, 0x99, 0x01, 0] : List Byte)[5]? = some (0 : Byte) ∧
      ([0x51, 0x58, 0x57, 0x99, 0x01, 0] : List Byte).length = 6 + (0 : Byte).toNat) ∧
    ([0x51, 0x58, 0x57, 0x10, 0x01, 1, 4] : List Byte).length = 6 + (1 : Byte).toNat ∧
    (([0x51, 0x58, 0x57, 0x20, 0x01, 0, 0xAA] : List Byte)[5]? = some (0 : Byte) ∧
      ([0x51, 0x58, 0x57, 0x20, 0x01, 0, 0xAA] : List Byte).length ≠ 6 + (0 : Byte).toNat) := by decide

theorem witness_FrameSequenceEncodesExactlyShortPayloads :
    State.reset.pay = [] ∧ State.reset.payOvf = false ∧ (List.replicate 255 (0 : Byte)).length ≤ 255 ∧
    255 < (List.replicate 256 (0 : Byte)).length :=
  ⟨rfl, rfl, le_of_eq List.length_replicate, by rw [List.length_replicate]; decide⟩

theorem witness_RecvSequenceDecodesExactlyFittingNotifications :
    State.reset.rx = [] ∧ State.reset.rxOvf = false ∧ (List.replicate 261 (0 : Byte)).length ≤ 261 ∧
    261 < (List.replicate 262 (0 : Byte)).length :=
  ⟨rfl, rfl, le_of_eq List.length_replicate, by rw [List.length_replicate]; decide⟩

theorem witness_EncodedFrameDecodesToItsParts :
    (List.replicate 255 (0xAA : Byte)).length ≤ 255 ∧ State.reset.pay = [] ∧ State.reset.payOvf = false ∧
    State.reset.rx = [] ∧ State.reset.rxOvf = false :=
  ⟨le_of_eq List.length_replicate, rfl, rfl, rfl, rfl⟩

theorem witness_NonFrameIsUnrecognized :
    ({ State.reset with rx := [0x52, 0x58, 0x57, 0x10, 0x01, 0x00] } : State).rx.take 3 ≠ [0x51, 0x58, 0x57] ∧
    ({ State.reset with rx := [0x51, 0x58, 0x57, 0x10] } : State).rx.length < 5 ∧
    (({ fullRx with rxOvf := true } : State).rx.take 3 ≠ [0x51, 0x58, 0x57]) := by decide

/-- For RoundingIsToNearestWithTheTieRule, EncodeGainClampsAtTheExactBoundaries, EncodeQClampsAtTheExactBoundaries and
GainAndQArithmeticLaws: ties on both sides of zero; the ends of the operand range; the boundaries of R66. -/
theorem witness_RoundingAndClampingOperands :
    ((-5 : Int).natAbs % 10 = 5 ∧ (15 : Int).natAbs % 10 = 5) ∧
    ((-32768 : Int) ≤ -1195 ∧ (1346 : Int) ≤ 32767) ∧
    ((-1195 : Int) ≤ -1195 ∧ (1345 : Int) ≤ 1345) ∧ ((-1200 : Int) ≤ 1350 ∧ (1350 : Int) ≤ 1350) := by decide

/-- For SetBandWritesBothCodes, SetBandGainWritesTheGainOnly, SetBandQWritesTheQOnly and ReadBandAnswersBothCodes: the last
index in range and the first out of it. -/
theorem witness_band_index_boundaries : (7 : Byte).toNat ≤ 7 ∧ 7 < (8 : Byte).toNat ∧ (7 : Fin 8).val = (7 : Byte).toNat := by
  decide

theorem witness_StagePresetAppendsOrRefuses :
    ({ State.reset with ps := presetV13.take 7 } : State).ps.length ≠ 8 ∧ fullPs.ps.length = 8 := by decide

theorem witness_ApplyPresetWritesAllBandsOrNone :
    (fullPs.psOvf = false ∧ fullPs.ps.length = 8 ∧ fullPs.ps[(7 : Fin 8).val]? = some ⟨1400, 0xFFF6⟩) ∧
    ({ fullPs with psOvf := true } : State).psOvf = true ∧ State.reset.ps.length ≠ 8 := by decide

theorem witness_PresetSequenceAppliesExactlyEightPairs :
    State.reset.ps = [] ∧ State.reset.psOvf = false ∧ presetV13.length = 8 ∧ (presetV13.take 7).length ≠ 8 ∧
    (presetV13 ++ [(⟨0, 70⟩ : PresetPair)]).length ≠ 8 := by decide

theorem witness_DevinfoParseReadsBatteriesAndName :
    ([1, 3, 100, 100] : List Byte).length < 5 ∧ 5 ≤ ([1, 3, 100, 100, 0] : List Byte).length ∧
    ([1, 3, 100, 100, 0] : List Byte)[2]? = some 100 ∧ ([1, 3, 100, 100, 0] : List Byte)[3]? = some 100 := by decide

theorem witness_ReservedInfoBytesAffectNoClassification :
    ([1, 3, 100, 100, 0] : List Byte).length = ([9, 9, 100, 100, 9] : List Byte).length ∧
    ∀ i, i ≠ 0 → i ≠ 1 → i ≠ 4 → ([1, 3, 100, 100, 0] : List Byte)[i]? = ([9, 9, 100, 100, 9] : List Byte)[i]? := by
  refine ⟨rfl, ?_⟩
  rintro (_ | _ | _ | _ | _ | i) h0 h1 h4 <;> simp_all

/-- V-N8: the candidate at 8 is accepted, and so is the one at 5, which it beats. -/
theorem witness_name_candidates :
    NameAccepted [1, 3, 100, 100, 0, 2, 0x48, 0x65, 1, 0x6F] 8 [0x6F] ∧
    NameAccepted [1, 3, 100, 100, 0, 2, 0x48, 0x65, 1, 0x6F] 5 [0x48, 0x65] := by
  refine ⟨⟨1, rfl, by decide, by decide, by decide, ?_, rfl⟩, ⟨2, rfl, by decide, by decide, by decide, ?_, rfl⟩⟩
  · intro j h1 h2
    obtain rfl : j = 9 := by simp at h2; omega
    exact ⟨_, rfl, by decide, by decide⟩
  · intro j h1 h2
    obtain rfl | rfl : j = 6 ∨ j = 7 := by simp at h2; omega
    · exact ⟨_, rfl, by decide, by decide⟩
    · exact ⟨_, rfl, by decide, by decide⟩

/-- No candidate at all, and a name that is not empty. -/
theorem witness_NameScanTakesTheRightmostCandidate :
    (∀ i name, 5 ≤ i → ¬ NameAccepted [1, 3, 100, 100, 0] i name) ∧
    (∀ j other, 8 < j → ¬ NameAccepted [1, 3, 100, 100, 0, 2, 0x48, 0x65, 1, 0x6F] j other) ∧
    nameScan [1, 3, 100, 100, 0, 2, 0x48, 0x65, 1, 0x6F] ≠ [] := by
  refine ⟨?_, ?_, by decide⟩
  · rintro i name hi ⟨k, hk, h0, -, hl, -⟩
    simp at hl; omega
  · rintro j other hj ⟨k, hk, h0, -, hl, -⟩
    simp at hl; omega

/-- Inside the accepted run of R82 there is an index between its prefix and its end. -/
theorem witness_NameScanProperties :
    NameAccepted [1, 3, 100, 100, 0, 2, 0x48, 0x65, 1, 0x6F] 5 [0x48, 0x65] ∧
    5 < 7 ∧ 7 < 5 + 1 + ([0x48, 0x65] : List Byte).length := ⟨witness_name_candidates.2, by decide, by decide⟩

theorem witness_BuildSelectEqEmitsTheFrameOrRefuses :
    (1 ≤ (1 : Byte).toNat ∧ (1 : Byte).toNat ≤ 4) ∧ (1 ≤ (4 : Byte).toNat ∧ (4 : Byte).toNat ≤ 4) ∧
    (0 : Byte).toNat < 1 ∧ 4 < (5 : Byte).toNat := by decide

theorem witness_BuildersEqualTheFrameSequence :
    State.reset.pay = [] ∧ State.reset.payOvf = false ∧
    Instr.buildSelectEq 4 = .buildSelectEq (Config.presetNumber .studio) ∧
    Config.presetNumber .main = 1 := by decide

set_option maxRecDepth 8000 in
/-- An operation for each cause of an error status. -/
theorem witness_ErrorStatusesHaveExactlyTheirCauses :
    (∃ t r, exec (.pushPay 1) fullPay = .next t ∧ t.resp = some r ∧ r.status = .argErr) ∧
    (∃ t r, exec (.encode 1 1) { fullPay with payOvf := true } = .next t ∧ t.resp = some r ∧ r.status = .argErr) ∧
    (∃ t r, exec (.stagePreset 1 1) fullPs = .next t ∧ t.resp = some r ∧ r.status = .argErr) ∧
    (∃ t r, exec .applyPreset State.reset = .next t ∧ t.resp = some r ∧ r.status = .argErr) ∧
    (∃ t r, exec (.readBand 8) State.reset = .next t ∧ t.resp = some r ∧ r.status = .rangeErr) ∧
    (∃ t r, exec (.buildSelectEq 0) State.reset = .next t ∧ t.resp = some r ∧ r.status = .rangeErr) ∧
    (∃ t r, exec (.pushRx 1) fullRx = .next t ∧ t.resp = some r ∧ r.status = .rxOverflow) ∧
    (∃ t r, exec .decode { fullRx with rxOvf := true } = .next t ∧ t.resp = some r ∧ r.status = .rxOverflow) :=
  ⟨⟨_, _, rfl, rfl, rfl⟩, ⟨_, _, rfl, rfl, rfl⟩, ⟨_, _, rfl, rfl, rfl⟩, ⟨_, _, rfl, rfl, rfl⟩, ⟨_, _, rfl, rfl, rfl⟩,
    ⟨_, _, rfl, rfl, rfl⟩, ⟨_, _, rfl, rfl, rfl⟩, ⟨_, _, rfl, rfl, rfl⟩⟩

/-- V-D10, V-D11: a short info payload and one of 5 bytes, without overflow; and V-D2, V-D7: 4 bytes, and no magic. -/
theorem witness_FormatErrorIsAnEventNotAStatus :
    (({ State.reset with rx := [0x51, 0x58, 0x57, 0x27, 0x02, 1, 3, 100, 100] } : State).rxOvf = false ∧
      ({ State.reset with rx := [0x51, 0x58, 0x57, 0x27, 0x02, 1, 3, 100, 100] } : State).rx.length < 10) ∧
    ¬ ({ State.reset with rx := [0x51, 0x58, 0x57, 0x27, 0x02, 1, 3, 100, 100, 0] } : State).rx.length < 10 ∧
    ({ State.reset with rx := [0x51, 0x58, 0x57, 0x10] } : State).rx.length < 5 ∧
    ({ State.reset with rx := [0x51, 0x58, 0x56, 0x10, 0x01, 0x00] } : State).rx.take 3 ≠ [0x51, 0x58, 0x57] := by decide

end Sys2Proof.Tests
end

section
/-! SUPPORT. The rounding of 00_scope.md R8: what the rounded magnitude is, that the sign is put back on it, and from these that
`round10` is rounding to nearest with the tie rule of the mode. -/

namespace Sys2Proof.Machine

/-! ### The rounded magnitude -/

/-- Ten times the rounded magnitude is at most half a step from the magnitude, on either side. -/
theorem roundMagnitude_within_half (m : RoundMode) (a : Nat) :
    10 * roundMagnitude m a ≤ a + 5 ∧ a ≤ 10 * roundMagnitude m a + 5 := by
  cases m with
  | halfAway => simp only [roundMagnitude]; split <;> omega
  | halfEven => simp only [roundMagnitude]; split <;> omega

theorem roundMagnitude_halfAway_tie {a : Nat} (h : a % 10 = 5) : 10 * roundMagnitude .halfAway a = a + 5 := by
  simp only [roundMagnitude, h, Nat.le_refl, if_true]
  omega

theorem roundMagnitude_halfEven_tie {a : Nat} (h : a % 10 = 5) : roundMagnitude .halfEven a % 2 = 0 := by
  simp only [roundMagnitude]
  split <;> omega

@[simp] theorem roundMagnitude_zero (m : RoundMode) : roundMagnitude m 0 = 0 := by cases m <;> rfl

/-! ### The signed rounding -/

@[simp] theorem round10_natCast (m : RoundMode) (a : Nat) : round10 m (a : Int) = roundMagnitude m a := by
  simp [round10]

/-- The rounding is odd: it acts on the magnitude and keeps the sign. -/
@[simp] theorem round10_neg (m : RoundMode) (c : Int) : round10 m (-c) = -round10 m c := by
  obtain hc | rfl | hc := lt_trichotomy c 0
  · simp [round10, hc, hc.le]
  · simp [round10]
  · simp [round10, hc, hc.le]

@[simp] theorem natAbs_round10 (m : RoundMode) (c : Int) : (round10 m c).natAbs = roundMagnitude m c.natAbs := by
  obtain ⟨a, rfl | rfl⟩ := c.eq_nat_or_neg <;> simp

theorem round10_within_half (m : RoundMode) (c : Int) : |10 * round10 m c - c| ≤ 5 := by
  obtain ⟨a, rfl | rfl⟩ := c.eq_nat_or_neg
  all_goals
    have := roundMagnitude_within_half m a
    simp only [round10_neg, round10_natCast, abs_le]
    omega

theorem round10_halfAway_tie {c : Int} (h : c.natAbs % 10 = 5) : 10 * |round10 .halfAway c| = |c| + 5 := by
  have := roundMagnitude_halfAway_tie h
  rw [Int.abs_eq_natAbs, Int.abs_eq_natAbs, natAbs_round10]
  omega

theorem round10_halfEven_tie {c : Int} (h : c.natAbs % 10 = 5) : round10 .halfEven c % 2 = 0 := by
  have := roundMagnitude_halfEven_tie h
  rw [← natAbs_round10] at this
  omega

/-- Settles O30: the distance and both tie rules are those of the magnitude, and the sign changes neither. -/
theorem roundingIsToNearestWithTheTieRule : Obligations.RoundingIsToNearestWithTheTieRule := by
  intro m c
  refine ⟨round10_within_half m c, ?_, ?_⟩
  · rintro h rfl
    exact round10_halfAway_tie h
  · rintro h rfl
    exact round10_halfEven_tie h

end Sys2Proof.Machine
end

section
/-! SUPPORT. What every operation does, said once: how it moves each staging buffer with its flag (10_state.md R16 to R19), whether
it may write `band` (R14), and what it answers (R23 to R25). The invariants of the block are read off this. -/

namespace Sys2Proof.Machine

/-! ### The moves of a staging buffer -/

/-- What one operation can do to a staging buffer and its overflow flag (R16 to R19), `buf` and `ovf` before, `buf'` and `ovf'`
after: `pushes` and `consumes` say which operations may. -/
inductive BufferMove {α : Type} (capacity : Nat) (pushes consumes : Prop) (buf : List α) (ovf : Bool) :
    (buf' : List α) → (ovf' : Bool) → Prop where
  | keep : BufferMove capacity pushes consumes buf ovf buf ovf
  | append (x : α) : pushes → buf.length ≠ capacity → BufferMove capacity pushes consumes buf ovf (buf ++ [x]) ovf
  | refuse : pushes → buf.length = capacity → BufferMove capacity pushes consumes buf ovf buf true
  | drop : consumes → BufferMove capacity pushes consumes buf ovf [] false

namespace BufferMove

variable {α : Type} {capacity : Nat} {pushes consumes : Prop} {buf buf' : List α} {ovf ovf' : Bool}

/-- A buffer that respects its capacity, and is full when its flag is set, stays so. -/
theorem keeps_bounds (h : BufferMove capacity pushes consumes buf ovf buf' ovf')
    (hle : buf.length ≤ capacity) (hovf : ovf = true → buf.length = capacity) :
    buf'.length ≤ capacity ∧ (ovf' = true → buf'.length = capacity) := by
  cases h with
  | keep => exact ⟨hle, hovf⟩
  | append x _ hroom =>
    refine ⟨?_, fun ho => absurd (hovf ho) hroom⟩
    rw [List.length_append, List.length_singleton]
    omega
  | refuse _ hfull => exact ⟨hle, fun _ => hfull⟩
  | drop => exact ⟨Nat.zero_le _, nofun⟩

theorem refused_of_flag_set (h : BufferMove capacity pushes consumes buf ovf buf' ovf') (h0 : ovf = false)
    (h1 : ovf' = true) : pushes ∧ buf.length = capacity ∧ buf' = buf := by
  cases h with
  | keep | append => exact absurd (h0.symm.trans h1) nofun
  | refuse hp hfull => exact ⟨hp, hfull, rfl⟩
  | drop => cases h1

theorem dropped_of_flag_cleared (h : BufferMove capacity pushes consumes buf ovf buf' ovf') (h0 : ovf = true)
    (h1 : ovf' = false) : consumes ∧ buf' = [] := by
  cases h with
  | keep | append => exact absurd (h0.symm.trans h1) nofun
  | refuse => cases h1
  | drop hc => exact ⟨hc, rfl⟩

end BufferMove

/-! ### The effect and the answer of an operation -/

/-- The writers of the band register file (R14), `rst` aside. -/
abbrev WritesBand (i : Instr) : Prop :=
  i.op = .setBand ∨ i.op = .setBandGain ∨ i.op = .setBandQ ∨ i.op = .applyPreset ∨ i.op = .resetEq

/-- What operation `i` may do to the state: each buffer moved by its own operations only, `band` by its writers only, and what
the host presents later untouched. -/
structure Effect (i : Instr) (s t : State) : Prop where
  pay : BufferMove 255 (∃ a, i = .pushPay a) ((∃ c y, i = .encode c y) ∨ i = .clear) s.pay s.payOvf t.pay t.payOvf
  rx : BufferMove 261 (∃ a, i = .pushRx a) (i = .decode ∨ i = .clear) s.rx s.rxOvf t.rx t.rxOvf
  ps : BufferMove 8 (∃ x y, i = .stagePreset x y) (i = .applyPreset ∨ i = .clear) s.ps s.psOvf t.ps t.psOvf
  band : WritesBand i ∨ t.band = s.band
  inputs : t.inputs = s.inputs

/-- The responses of operation `i` in state `s` (R23 to R25): only DECODE fills the event, and only a completed operation has a
result or an OUT stream. -/
inductive Answer (i : Instr) (s : State) : Response → Prop where
  | completed (res : Half) (out : List Byte) : i ≠ .decode → (s.pay.length ≤ 255 → out.length ≤ 261) →
      Answer i s ⟨.ok, res, noEvt, out⟩
  | error (e : Status) : i ≠ .decode → Answer i s ⟨e, 0, noEvt, []⟩
  | overflow : i = .decode → Answer i s ⟨.rxOverflow, 0, unrecognizedEvt, []⟩
  | notification : i = .decode → Answer i s ⟨.ok, 0, notificationEvt s.rx, []⟩

/-- The operation completes: an effect, and a response. -/
def Performs (i : Instr) (s t : State) : Prop := Effect i s t ∧ ∃ r, t.resp = some r ∧ Answer i s r

theorem Effect.refl (i : Instr) (s : State) : Effect i s s := ⟨.keep, .keep, .keep, .inr rfl, rfl⟩

theorem Effect.of_writesBand {i : Instr} (h : WritesBand i) (s : State) (bands : Vector BandCode 8) :
    Effect i s { s with band := bands } :=
  { Effect.refl i s with band := .inl h }

section
variable {i : Instr} {s u : State}

theorem performs_doneRes (he : Effect i s u) (hi : i ≠ .decode) (res : Half) : Performs i s (doneRes res u) :=
  ⟨⟨he.pay, he.rx, he.ps, he.band, he.inputs⟩, _, rfl, .completed _ _ hi fun _ => Nat.zero_le _⟩

theorem performs_done (he : Effect i s u) (hi : i ≠ .decode) : Performs i s (done u) := performs_doneRes he hi 0

theorem performs_doneOut (he : Effect i s u) (hi : i ≠ .decode) {out : List Byte}
    (hout : s.pay.length ≤ 255 → out.length ≤ 261) : Performs i s (doneOut out u) :=
  ⟨⟨he.pay, he.rx, he.ps, he.band, he.inputs⟩, _, rfl, .completed _ _ hi hout⟩

theorem performs_raise (he : Effect i s u) (hi : i ≠ .decode) (e : Status) : Performs i s (raise e u) :=
  ⟨⟨he.pay, he.rx, he.ps, he.band, he.inputs⟩, _, rfl, .error _ hi⟩

end

theorem customEqPayload_length (band : Vector BandCode 8) : (customEqPayload band).length = 24 := by
  rw [customEqPayload_eq]
  rfl

/-- Every operation, in every state, completes (R27: "`perform` is total"). -/
theorem exec_performs (i : Instr) (s : State) : ∃ t, exec i s = .next t ∧ Performs i s t := by
  have same := Effect.refl i s
  cases i with
  | pushPay a =>
    rcases exec_pushPay_cases a s with ⟨hfull, hs⟩ | ⟨hroom, hs⟩
    · have refused : Effect (.pushPay a) s (setPayOvf s) := { same with pay := .refuse ⟨a, rfl⟩ hfull }
      exact ⟨_, hs, performs_raise refused nofun _⟩
    · exact ⟨_, hs, performs_done { same with pay := .append a ⟨a, rfl⟩ hroom } nofun⟩
  | encode c y =>
    have consumed : Effect (.encode c y) s (dropPay s) := { same with pay := .drop (.inl ⟨c, y, rfl⟩) }
    rcases exec_encode_cases c y s with ⟨-, hs⟩ | ⟨-, hs⟩
    · exact ⟨_, hs, performs_raise consumed nofun _⟩
    · exact ⟨_, hs, performs_doneOut consumed nofun fun h => by rw [frame_length]; omega⟩
  | pushRx a =>
    rcases exec_pushRx_cases a s with ⟨hfull, hs⟩ | ⟨hroom, hs⟩
    · have refused : Effect (.pushRx a) s (setRxOvf s) := { same with rx := .refuse ⟨a, rfl⟩ hfull }
      exact ⟨_, hs, performs_raise refused nofun _⟩
    · exact ⟨_, hs, performs_done { same with rx := .append a ⟨a, rfl⟩ hroom } nofun⟩
  | decode =>
    rcases exec_decode_cases s with ⟨-, hs⟩ | ⟨-, hs⟩
    · exact ⟨_, hs, { same with rx := .drop (.inl rfl) }, _, rfl, .overflow rfl⟩
    · exact ⟨_, hs, { same with rx := .drop (.inl rfl) }, _, rfl, .notification rfl⟩
  | encGain x => exact ⟨_, rfl, performs_doneRes same nofun _⟩
  | decGain a => exact ⟨_, rfl, performs_doneRes same nofun _⟩
  | encQ y => exact ⟨_, rfl, performs_doneRes same nofun _⟩
  | decQ a => exact ⟨_, rfl, performs_doneRes same nofun _⟩
  | setBand a x y =>
    rcases exec_setBand_cases a x y s with ⟨-, hs⟩ | ⟨j, -, hs⟩
    · exact ⟨_, hs, performs_raise same nofun _⟩
    · exact ⟨_, hs, performs_done (.of_writesBand (.inl rfl) s _) nofun⟩
  | setBandGain a x =>
    rcases exec_setBandGain_cases a x s with ⟨-, hs⟩ | ⟨j, -, hs⟩
    · exact ⟨_, hs, performs_raise same nofun _⟩
    · exact ⟨_, hs, performs_done (.of_writesBand (.inr (.inl rfl)) s _) nofun⟩
  | setBandQ a y =>
    rcases exec_setBandQ_cases a y s with ⟨-, hs⟩ | ⟨j, -, hs⟩
    · exact ⟨_, hs, performs_raise same nofun _⟩
    · exact ⟨_, hs, performs_done (.of_writesBand (.inr (.inr (.inl rfl))) s _) nofun⟩
  | readBand a =>
    rcases exec_readBand_cases a s with ⟨-, hs⟩ | ⟨j, -, hs⟩
    · exact ⟨_, hs, performs_raise same nofun _⟩
    · exact ⟨_, hs, performs_doneRes same nofun _⟩
  | stagePreset x y =>
    rcases exec_stagePreset_cases x y s with ⟨hfull, hs⟩ | ⟨hroom, hs⟩
    · have refused : Effect (.stagePreset x y) s (setPsOvf s) := { same with ps := .refuse ⟨x, y, rfl⟩ hfull }
      exact ⟨_, hs, performs_raise refused nofun _⟩
    · exact ⟨_, hs, performs_done { same with ps := .append ⟨x, y⟩ ⟨x, y, rfl⟩ hroom } nofun⟩
  | applyPreset =>
    rcases exec_applyPreset_cases s with ⟨-, hs⟩ | ⟨-, -, bands, -, hs⟩
    · have consumed : Effect .applyPreset s (dropPs s) := { same with ps := .drop (.inl rfl) }
      exact ⟨_, hs, performs_raise consumed nofun _⟩
    · have written := Effect.of_writesBand (i := .applyPreset) (.inr (.inr (.inr (.inl rfl)))) s bands
      exact ⟨_, hs, performs_done { written with ps := .drop (.inl rfl) } nofun⟩
  | resetEq => exact ⟨_, rfl, performs_done (.of_writesBand (.inr (.inr (.inr (.inr rfl)))) s _) nofun⟩
  | eqPayload =>
    exact ⟨_, rfl, performs_doneOut same nofun fun _ => by rw [customEqPayload_length]; omega⟩
  | buildSelectEq a =>
    rcases exec_buildSelectEq_cases a s with ⟨-, hs⟩ | ⟨-, hs⟩
    · exact ⟨_, hs, performs_raise same nofun _⟩
    · exact ⟨_, hs, performs_doneOut same nofun fun _ => by rw [frame_length, List.length_singleton]; omega⟩
  | buildCustomEq =>
    exact ⟨_, rfl, performs_doneOut same nofun fun _ => by rw [frame_length, customEqPayload_length]; omega⟩
  | buildDevinfoReq =>
    exact ⟨_, rfl, performs_doneOut same nofun fun _ => by rw [frame_length, List.length_nil]; omega⟩
  | clear =>
    have emptied : Effect .clear s (dropPs (dropRx (dropPay s))) :=
      ⟨.drop (.inr rfl), .drop (.inr rfl), .drop (.inr rfl), .inr rfl, rfl⟩
    exact ⟨_, rfl, performs_done emptied nofun⟩

/-- The inversion of `exec`. -/
theorem performs_of_exec {i : Instr} {s t : State} (h : exec i s = .next t) : Performs i s t := by
  obtain ⟨u, hu, hp⟩ := exec_performs i s
  rw [h] at hu
  cases hu
  exact hp

theorem effect_of_exec {i : Instr} {s t : State} (h : exec i s = .next t) : Effect i s t := (performs_of_exec h).1

theorem answer_of_exec {i : Instr} {s t : State} {r : Response} (h : exec i s = .next t) (hr : t.resp = some r) :
    Answer i s r := by
  obtain ⟨-, r', hr', ha⟩ := performs_of_exec h
  rw [hr] at hr'
  cases hr'
  exact ha

theorem writesBand_of_exec {i : Instr} {s t : State} (h : exec i s = .next t) (hb : t.band ≠ s.band) : WritesBand i :=
  (effect_of_exec h).band.resolve_right hb

/-- One command word, legal or not, ends in a next state and takes none of the host's later inputs. -/
theorem stepWord_completes (w : Word) (s : State) : ∃ t, stepWord w s = .next t ∧ t.inputs = s.inputs := by
  rcases stepWord_cases w s with ⟨_, -, hs⟩ | ⟨i, -, hs⟩
  · exact ⟨_, hs, rfl⟩
  · obtain ⟨t, ht, he, -⟩ := exec_performs i s
    exact ⟨t, hs.trans ht, he.inputs⟩

end Sys2Proof.Machine
end

section
/-! SUPPORT. The event record and the response are legal (10_state.md R23 to R25): the events without a device name, the name of a
DeviceInfo event, and the raw view beside the classification. -/

namespace Sys2Proof.Machine

/-! ### Codes -/

theorem Status.code_le_four (status : Status) : status.code.toNat ≤ 4 := by cases status <;> decide

theorem EvtKind.code_le_five (kind : EvtKind) : kind.code.toNat ≤ 5 := by cases kind <;> decide

theorem EvtKind.code_eq_zero_iff (kind : EvtKind) : kind.code = 0 ↔ kind = .none := by cases kind <;> decide

/-! ### Events -/

theorem padName_getElem (l : List Byte) (i : Fin 31) : (padName l)[i] = l[i.val]?.getD 0 := by
  have hi := i.isLt
  simp only [padName, Fin.getElem_fin, Vector.getElem_mk, List.getElem_toArray, List.getElem_take]
  by_cases h : i.val < l.length
  · rw [List.getElem_append_left h, List.getElem?_eq_getElem h, Option.getD_some]
  · rw [List.getElem_append_right (by omega), List.getElem_replicate, List.getElem?_eq_none (by omega), Option.getD_none]

theorem noRaw_legal : noRaw.Legal := ⟨nofun, fun _ => ⟨rfl, rfl, rfl, rfl⟩⟩

theorem plainEvt_legal {kind : EvtKind} {valid : Bool} {code : Byte} (hcode : valid = false → code = 0)
    (hkind : kind = .none → valid = false) : (plainEvt kind valid code).Legal := by
  refine ⟨hcode, fun _ => ⟨rfl, rfl, rfl⟩, fun i => ⟨?_, fun _ => padName_getElem [] i⟩, noRaw_legal, fun h => ⟨hkind h, rfl⟩⟩
  exact fun h => absurd h (Nat.not_lt_zero _)

theorem noEvt_legal : noEvt.Legal := plainEvt_legal (fun _ => rfl) (fun _ => rfl)

theorem unrecognizedEvt_legal : unrecognizedEvt.Legal := plainEvt_legal (fun _ => rfl) (fun _ => rfl)

theorem deviceInfoEvt_legal {d : DeviceInfo} (hlen : d.name.length ≤ 31)
    (hname : ∀ c ∈ d.name, 0x20 ≤ c.toNat ∧ c.toNat ≤ 0x7E) : (deviceInfoEvt d).Legal := by
  have hl : (deviceInfoEvt d).nameLen.toNat = d.name.length := by
    change (BitVec.ofNat 5 d.name.length).toNat = _
    rw [BitVec.toNat_ofNat, Nat.mod_eq_of_lt (by omega)]
  have hget (i : Fin 31) : (deviceInfoEvt d).name[i] = d.name[i.val]?.getD 0 := padName_getElem d.name i
  refine ⟨nofun, fun h => absurd rfl h, fun i => ?_, noRaw_legal, nofun⟩
  rw [hl, hget]
  constructor
  · intro hi
    rw [List.getElem?_eq_getElem hi, Option.getD_some]
    exact hname _ (List.getElem_mem hi)
  · intro hi
    rw [List.getElem?_eq_none hi, Option.getD_none]

/-- The event keeps the rules of R25 when the raw view beside it is another legal one; kind NONE has no raw view. -/
theorem Evt.Legal.with_raw {e : Evt} {r : RawView} (he : e.Legal) (hk : e.kind ≠ .none) (hr : r.Legal) :
    Evt.Legal { e with raw := r } := by
  obtain ⟨hcode, hinfo, hname, -, -⟩ := he
  exact ⟨hcode, hinfo, hname, hr, fun h => absurd h hk⟩

/-! ### The classification and the raw view of a notification -/

theorem devinfoParse_name {p : List Byte} {d : DeviceInfo} (h : devinfoParse p = some d) : d.name = nameScan p := by
  unfold devinfoParse at h
  split at h
  · cases h; rfl
  · cases h

/-- A classification: an event of a kind other than NONE that keeps the rules of R25. -/
abbrev Evt.Classifies (e : Evt) : Prop := e.kind ≠ .none ∧ e.Legal

theorem plainEvt_classifies {kind : EvtKind} (c : Byte) (h : kind ≠ .none) : (plainEvt kind true c).Classifies :=
  ⟨h, plainEvt_legal nofun fun hk => absurd hk h⟩

theorem unrecognizedEvt_classifies : unrecognizedEvt.Classifies := ⟨nofun, unrecognizedEvt_legal⟩

theorem classifyCode_classifies (c b4 : Byte) (p : List Byte) : (classifyCode c b4 p).Classifies := by
  unfold classifyCode
  split
  case isTrue => exact plainEvt_classifies _ nofun
  split
  case isTrue => exact plainEvt_classifies _ nofun
  split
  case isFalse => exact plainEvt_classifies _ nofun
  split
  case isTrue => exact plainEvt_classifies _ nofun
  split
  next => exact plainEvt_classifies _ nofun
  next d hd =>
    obtain ⟨hlen, hchars⟩ := nameScan_short_printable p
    rw [← devinfoParse_name hd] at hlen hchars
    exact ⟨nofun, deviceInfoEvt_legal hlen hchars⟩

theorem classify_classifies (b : List Byte) : (classify b).Classifies := by
  unfold classify
  split
  · split
    · exact classifyCode_classifies _ _ _
    · exact unrecognizedEvt_classifies
  · exact unrecognizedEvt_classifies

theorem rawView_legal (b : List Byte) : (rawView b).Legal := by
  unfold rawView
  split
  · split
    next h => exact ⟨fun _ => h.2, nofun⟩
    next => exact noRaw_legal
  · exact noRaw_legal

theorem notificationEvt_classifies (b : List Byte) : (notificationEvt b).Classifies := by
  obtain ⟨hk, hl⟩ := classify_classifies b
  exact ⟨hk, hl.with_raw hk (rawView_legal b)⟩

/-! ### Responses and states -/

theorem Answer.legal {i : Instr} {s : State} {r : Response} (h : Answer i s r) (hpay : s.pay.length ≤ 255) : r.Legal := by
  cases h with
  | completed res out _ hout => exact ⟨fun h => absurd rfl h, hout hpay, noEvt_legal⟩
  | error => exact ⟨fun _ => ⟨rfl, rfl⟩, Nat.zero_le _, noEvt_legal⟩
  | overflow => exact ⟨fun _ => ⟨rfl, rfl⟩, Nat.zero_le _, unrecognizedEvt_legal⟩
  | notification => exact ⟨fun _ => ⟨rfl, rfl⟩, Nat.zero_le _, (notificationEvt_classifies _).2⟩

/-- An operation answers event kind NONE exactly when it is not DECODE (R25). -/
theorem Answer.kind_eq_none_iff {i : Instr} {s : State} {r : Response} (h : Answer i s r) :
    r.evt.kind = .none ↔ i ≠ .decode := by
  cases h with
  | completed _ _ hi | error _ hi => exact iff_of_true rfl hi
  | overflow hi => exact iff_of_false nofun (absurd hi)
  | notification hi => exact iff_of_false (notificationEvt_classifies _).1 (absurd hi)

theorem Effect.keeps_buffersLegal {i : Instr} {s t : State} (he : Effect i s t) (h : s.BuffersLegal) : t.BuffersLegal := by
  obtain ⟨hpay, hpayOvf, hrx, hrxOvf, hps, hpsOvf⟩ := h
  obtain ⟨hpay', hpayOvf'⟩ := he.pay.keeps_bounds hpay hpayOvf
  obtain ⟨hrx', hrxOvf'⟩ := he.rx.keeps_bounds hrx hrxOvf
  obtain ⟨hps', hpsOvf'⟩ := he.ps.keeps_bounds hps hpsOvf
  exact ⟨hpay', hpayOvf', hrx', hrxOvf', hps', hpsOvf'⟩

theorem exec_keeps_legal {i : Instr} {s t : State} (hs : s.Legal) (h : exec i s = .next t) : t.Legal := by
  obtain ⟨hbuf, -⟩ := hs
  exact ⟨(effect_of_exec h).keeps_buffersLegal hbuf, fun r hr => (answer_of_exec h hr).legal hbuf.1⟩

theorem illegalWord_legal {s : State} (hs : s.Legal) : (illegalWord s).Legal := by
  refine ⟨hs.1, fun r hr => ?_⟩
  obtain rfl : _ = r := Option.some.inj hr
  exact ⟨fun _ => ⟨rfl, rfl⟩, Nat.zero_le _, noEvt_legal⟩

theorem stepWord_keeps_legal {w : Word} {s t : State} (hs : s.Legal) (h : stepWord w s = .next t) : t.Legal := by
  rcases stepWord_cases w s with ⟨_, -, hw⟩ | ⟨i, -, hw⟩ <;> rw [hw] at h
  · cases h
    exact illegalWord_legal hs
  · exact exec_keeps_legal hs h

theorem hardReset_legal (s : State) : (hardReset s).Legal := by
  refine ⟨?_, nofun⟩
  simp only [State.BuffersLegal, hardReset_pay, hardReset_payOvf, hardReset_rx, hardReset_rxOvf, hardReset_ps,
    hardReset_psOvf]
  decide

end Sys2Proof.Machine
end

section
/-! SUPPORT. The ports (10_state.md R20 to R22): no operation reads the response or what the host presents later, so a run over
presented words is the fold of `stepWord`; and the beats of the out port. -/

namespace Sys2Proof.Machine

/-! ### The input and response ports -/

/-- The block with another earlier response, and other inputs to come. -/
def withPorts (r : Option Response) (l : List HostInput) (s : State) : State := { s with resp := r, inputs := l }

/-- The same outcome, with other inputs to come. -/
def onInputs (l : List HostInput) : Result → Result
  | .next t => .next { t with inputs := l }
  | .fault f => .fault f
  | .refused r => .refused r

/-- Each test an operation makes is on the state of R13, and so comes out the same whatever the ports hold. -/
theorem exec_withPorts (i : Instr) (r : Option Response) (l : List HostInput) (s : State) :
    exec i (withPorts r l s) = onInputs l (exec i s) := by
  cases i with
  | pushPay a => dsimp only [exec, execPushPay, withPorts]; cases stage Config.payMax s.pay a <;> rfl
  | encode c y => dsimp only [exec, execEncode, withPorts]; cases s.payOvf <;> rfl
  | pushRx a => dsimp only [exec, execPushRx, withPorts]; cases stage Config.rxMax s.rx a <;> rfl
  | decode => dsimp only [exec, execDecode, withPorts]; cases s.rxOvf <;> rfl
  | setBand a x y => dsimp only [exec, execSetBand]; cases bandIndex a <;> rfl
  | setBandGain a x => dsimp only [exec, execSetBandGain]; cases bandIndex a <;> rfl
  | setBandQ a y => dsimp only [exec, execSetBandQ]; cases bandIndex a <;> rfl
  | readBand a => dsimp only [exec, execReadBand]; cases bandIndex a <;> rfl
  | stagePreset x y => dsimp only [exec, execStagePreset, withPorts]; cases stage Config.nBands s.ps ⟨x, y⟩ <;> rfl
  | applyPreset =>
    dsimp only [exec, execApplyPreset, withPorts]
    cases s.psOvf
    · cases presetBands Config.roundMode s.ps <;> rfl
    · rfl
  | buildSelectEq a => dsimp only [exec, execBuildSelectEq]; cases isPresetNumber a <;> rfl
  | encGain | decGain | encQ | decQ | resetEq | eqPayload | buildCustomEq | buildDevinfoReq | clear => rfl

theorem exec_next_withPorts {i : Instr} {s t : State} (r : Option Response) (l : List HostInput) (h : exec i s = .next t) :
    exec i (withPorts r l s) = .next { t with inputs := l } := by
  rw [exec_withPorts, h]
  rfl

theorem stepWord_next_withPorts {w : Word} {s t : State} (r : Option Response) (l : List HostInput)
    (h : stepWord w s = .next t) : stepWord w (withPorts r l s) = .next { t with inputs := l } := by
  rcases hd : decode w with e | i <;> simp only [stepWord, hd] at h ⊢
  · cases h
    rfl
  · exact exec_next_withPorts r l h

/-! ### The step on each input -/

theorem step_of_no_input {s : State} (h : s.inputs = []) : step s = .next s := by
  simp only [step, takeInput_nil h, idle_eq]

theorem step_command {s : State} {w : Word} {rest : List HostInput} (h : s.inputs = .command w :: rest) :
    step s = stepWord w { s with inputs := rest } := by
  simp only [step, takeInput_cons h]

/-! ### The out port -/

theorem outBeats_cons (b : Byte) (bs : List Byte) : outBeats (b :: bs) = (b, bs.isEmpty) :: outBeats bs := by
  cases bs <;> rfl

theorem map_fst_outBeats (out : List Byte) : (outBeats out).map Prod.fst = out := by
  induction out with
  | nil => rfl
  | cons b bs ih => rw [outBeats_cons, List.map_cons, ih]

theorem outBeats_marker_iff_last {out : List Byte} {i : Nat} {beat : Byte × Bool} (h : (outBeats out)[i]? = some beat) :
    beat.2 = true ↔ i + 1 = out.length := by
  induction out generalizing i with
  | nil => cases h
  | cons b bs ih =>
    rw [outBeats_cons] at h
    cases i with
    | zero =>
      obtain rfl : (b, bs.isEmpty) = beat := Option.some.inj h
      rw [List.isEmpty_iff, ← List.length_eq_zero_iff, List.length_cons]
      omega
    | succ i =>
      rw [List.getElem?_cons_succ] at h
      rw [ih h, List.length_cons, Nat.add_right_cancel_iff]

end Sys2Proof.Machine
end

section
/-! SUPPORT. The statements of 10_state.md on the invariant, the step, the ports, `band` and the flags. -/

namespace Sys2Proof.Machine

/-- Settles O7: each case of a step (no input, `rst`, a command word) gives a legal state. -/
theorem stepKeepsStateLegal : Obligations.StepKeepsStateLegal := by
  intro s t hs h
  rcases step_cases s with ⟨-, hstep⟩ | ⟨rest, -, hstep⟩ | ⟨w, rest, -, hstep⟩ <;> rw [hstep] at h
  · cases h
    exact hs
  · cases h
    exact hardReset_legal _
  · exact stepWord_keeps_legal (s := { s with inputs := rest }) hs h

/-- Settles O6: `exec` and one command word complete, and idling and `rst` are next states. -/
theorem everyOperationAndStepCompletes : Obligations.EveryOperationAndStepCompletes := by
  refine ⟨fun i s => ?_, fun s => ?_⟩
  · obtain ⟨t, ht, he, r, hr, -⟩ := exec_performs i s
    exact ⟨t, ht, he.inputs, by rw [hr]; rfl⟩
  · rcases step_cases s with ⟨-, hstep⟩ | ⟨rest, -, hstep⟩ | ⟨w, rest, -, hstep⟩
    · exact ⟨_, hstep⟩
    · exact ⟨_, hstep⟩
    · obtain ⟨t, ht, -⟩ := stepWord_completes w { s with inputs := rest }
      exact ⟨t, hstep.trans ht⟩

/-- Settles O8: every test an operation makes is on the state of R13. -/
theorem operationsReadNoPort : Obligations.OperationsReadNoPort :=
  fun _ _ _ r l h => exec_next_withPorts r l h

/-- Settles O9, by induction on the list of words: the first step performs the first word, whatever is presented behind it. -/
theorem runIsTheFoldOfTheStep : Obligations.RunIsTheFoldOfTheStep := by
  intro ws rest
  induction ws with
  | nil => intro s; rfl
  | cons w ws ih =>
    intro s
    obtain ⟨t, ht, hin⟩ : ∃ t, stepWord w { s with inputs := rest } = .next t ∧ t.inputs = rest := stepWord_completes w _
    have hword := stepWord_next_withPorts s.resp (ws.map .command ++ rest) ht
    have hstep : step { s with inputs := (w :: ws).map .command ++ rest } =
        .next { t with inputs := ws.map .command ++ rest } := (step_command rfl).trans hword
    have hqueue : { t with inputs := rest } = t := by rw [← hin]
    rw [List.length_cons, core_run_succ hstep, ih t, hqueue, runWords_cons_next ht]

/-- Settles O10, by induction on the OUT bytes: a beat is marked exactly when no byte follows it. -/
theorem outPortDeliversBytesWithLastMarker : Obligations.OutPortDeliversBytesWithLastMarker :=
  fun out => ⟨map_fst_outBeats out, fun _ _ h => outBeats_marker_iff_last h⟩

/-- Settles O11: the effect of an operation names the writers, and idling and illegal words keep `band`. -/
theorem onlyEqOperationsAndResetWriteBand : Obligations.OnlyEqOperationsAndResetWriteBand := by
  refine ⟨fun i s t h hb => writesBand_of_exec h hb, fun s t h hb => ?_⟩
  rcases step_cases s with ⟨-, hstep⟩ | ⟨rest, hin, -⟩ | ⟨w, rest, hin, hstep⟩
  · rw [hstep] at h
    cases h
    exact absurd rfl hb
  · exact .inl ⟨rest, hin⟩
  · rw [hstep] at h
    rcases stepWord_cases w { s with inputs := rest } with ⟨_, -, hw⟩ | ⟨i, hd, hw⟩ <;> rw [hw] at h
    · cases h
      exact absurd rfl hb
    · exact .inr ⟨w, i, rest, hin, hd, writesBand_of_exec h hb⟩

/-- Settles O12: the moves of each buffer, read at its flag. -/
theorem flagsChangeOnlyWithTheirBuffer : Obligations.FlagsChangeOnlyWithTheirBuffer := by
  intro i s t h
  have he := effect_of_exec h
  exact ⟨he.pay.refused_of_flag_set, he.pay.dropped_of_flag_cleared, he.rx.refused_of_flag_set,
    he.rx.dropped_of_flag_cleared, he.ps.refused_of_flag_set, he.ps.dropped_of_flag_cleared⟩

/-- Settles O2: the state after reset is what `rst` leaves in it. -/
theorem resetStateIsLegal : Obligations.ResetStateIsLegal :=
  ⟨hardReset_legal State.reset, by decide, rfl, rfl, rfl, rfl, rfl, rfl, rfl, rfl⟩

/-- Settles O3: a step on a presented word is `stepWord`, and `withFetchWord` presents one. -/
theorem stepRunsTheDecodedWord : Obligations.StepRunsTheDecodedWord := by
  refine ⟨fun s w rest i hin hd => ?_, fun s nbits w i hd => ?_⟩
  · rw [step_command hin, stepWord_ok _ hd]
  · rw [step_command (s := s.withFetchWord nbits w) rfl, stepWord_ok _ hd]
    rfl

/-- Settles O5: there is no input to take. -/
theorem blockIdlesWithoutInput : Obligations.BlockIdlesWithoutInput := fun _ h => step_of_no_input h

/-- Settles O59: the codes are the table's, and DECODE alone answers an event of a kind other than NONE. -/
theorem portCodesAreThoseOfTheSpec : Obligations.PortCodesAreThoseOfTheSpec := by
  refine ⟨by decide, by decide, Status.code_le_four, EvtKind.code_le_five, fun i s t r h hr => ?_⟩
  have hkind : r.evt.kind.code = 0 ↔ i ≠ .decode :=
    (EvtKind.code_eq_zero_iff _).trans (answer_of_exec h hr).kind_eq_none_iff
  exact ⟨hkind.mpr, fun hi h0 => hkind.mp h0 hi⟩

end Sys2Proof.Machine
end

section
/-! SUPPORT. The operations without a side effect (20_memory.md R35): each does nothing but answer, and its answer depends on no
earlier one. -/

namespace Sys2Proof.Machine

/-- The reading operations of R35. -/
abbrev Reads (i : Instr) : Prop :=
  i.op = .readBand ∨ i.op = .eqPayload ∨ i.op = .buildCustomEq ∨
    i.op = .encGain ∨ i.op = .decGain ∨ i.op = .encQ ∨ i.op = .decQ

/-- A reading operation answers, on an index out of range too, and does nothing else. -/
theorem exec_of_reads {i : Instr} (h : Reads i) (s : State) :
    ∃ status res out, exec i s = .next (respond status res noEvt out s) := by
  cases i with
  | readBand a =>
    rcases exec_readBand_cases a s with ⟨-, hs⟩ | ⟨j, -, hs⟩
    · exact ⟨_, _, _, hs⟩
    · exact ⟨_, _, _, hs⟩
  | encGain | decGain | encQ | decQ | eqPayload | buildCustomEq => exact ⟨_, _, _, rfl⟩
  | pushPay | encode | pushRx | decode | setBand | setBandGain | setBandQ | stagePreset | applyPreset | resetEq
  | buildSelectEq | buildDevinfoReq | clear => simp [Reads, Instr.op] at h

/-- An operation that only answers gives the same answer again: no operation reads the response of an earlier one (R20). -/
theorem exec_repeats_of_responds {i : Instr} {s : State} {status : Status} {res : Half} {evt : Evt} {out : List Byte}
    (h : exec i s = .next (respond status res evt out s)) :
    exec i (respond status res evt out s) = .next (respond status res evt out s) :=
  exec_next_withPorts (some ⟨status, res, evt, out⟩) s.inputs h

/-- Settles O13: a reading operation only answers, and what only answers repeats. -/
theorem readsChangeNothingAndRepeat : Obligations.ReadsChangeNothingAndRepeat := by
  intro i s h
  obtain ⟨status, res, out, hs⟩ := exec_of_reads h s
  exact ⟨_, hs, respond_onlyResponds status res noEvt out s, exec_repeats_of_responds hs⟩

end Sys2Proof.Machine
end

section
/-! SUPPORT. Encoding and decoding agree (30_encoding.md R45 to R48): the word of an instruction is the fields that its format uses
packed, so that decoding reads the operands back and encoding gives the word back. -/

namespace Sys2Proof

/-! ### The fields that a format uses -/

/-- A field's value where the format uses the field, and 0 where it does not (R46). -/
def used {n : Nat} (uses : Bool) (v : BitVec n) : BitVec n := if uses then v else 0

/-- A value that is 0 in an unused field is not changed. -/
theorem used_eq_self {n : Nat} {uses : Bool} {v : BitVec n} (h : uses = true ∨ v = 0) : used uses v = v := by
  rcases h with rfl | rfl
  · rfl
  · exact ite_self 0

/-- The word that is made of an operation and field values: its format's fields packed behind its `OPC`. -/
theorem encode_build (o : Op) (a b : Byte) (x y : Half) :
    encode (o.build a b x y) =
      packWord o.opc (used o.format.usesA a) (used o.format.usesB b) (used o.format.usesX x) (used o.format.usesY y) := by
  cases o <;> rfl

/-! ### The word of an instruction -/

/-- The laws of each constructor together. -/
theorem encode_fields (i : Instr) : Laws.WordFields.Statement i := by
  cases i with
  | pushPay a => exact Laws.WordFields.pushPay a
  | encode a b => exact Laws.WordFields.encode a b
  | pushRx a => exact Laws.WordFields.pushRx a
  | decode => exact Laws.WordFields.decode
  | encGain x => exact Laws.WordFields.encGain x
  | decGain a => exact Laws.WordFields.decGain a
  | encQ y => exact Laws.WordFields.encQ y
  | decQ a => exact Laws.WordFields.decQ a
  | setBand a x y => exact Laws.WordFields.setBand a x y
  | setBandGain a x => exact Laws.WordFields.setBandGain a x
  | setBandQ a y => exact Laws.WordFields.setBandQ a y
  | readBand a => exact Laws.WordFields.readBand a
  | stagePreset x y => exact Laws.WordFields.stagePreset x y
  | applyPreset => exact Laws.WordFields.applyPreset
  | resetEq => exact Laws.WordFields.resetEq
  | eqPayload => exact Laws.WordFields.eqPayload
  | buildSelectEq a => exact Laws.WordFields.buildSelectEq a
  | buildCustomEq => exact Laws.WordFields.buildCustomEq
  | buildDevinfoReq => exact Laws.WordFields.buildDevinfoReq
  | clear => exact Laws.WordFields.clear

/-- No operand is lost in the word: the operation built from the word's fields is the instruction. -/
theorem build_encode (i : Instr) :
    i.op.build (aOf (encode i)) (bOf (encode i)) (xOf (encode i)) (yOf (encode i)) = i := by
  cases i <;> simp only [Instr.op, Op.build, encode, aOf_packWord, bOf_packWord, xOf_packWord, yOf_packWord]

theorem decode_encode (i : Instr) : decode (encode i) = .ok i := by
  obtain ⟨hopc, hr, hunused⟩ := encode_fields i
  have hop : opOfOpc (opcOf (encode i)) = some i.op := by rw [hopc, opOfOpc_opc]
  exact (decode_ok_iff _ _).mpr ⟨i.op, hop, hr, hunused, (build_encode i).symm⟩

/-! ### The instruction of a word -/

theorem opc_of_decode {w : Word} {i : Instr} (h : decode w = .ok i) : i.op.opc = opcOf w := by
  obtain ⟨o, ho, -, -, rfl⟩ := (decode_ok_iff w i).mp h
  rw [build_op, opc_of_opOfOpc ho]

theorem encode_of_decode {w : Word} {i : Instr} (h : decode w = .ok i) : encode i = w := by
  obtain ⟨o, ho, hr, hunused, rfl⟩ := (decode_ok_iff w i).mp h
  obtain ⟨ha, hb, hx, hy⟩ := (unusedFieldsZero_iff _ _).mp hunused
  rw [encode_build, used_eq_self ha, used_eq_self hb, used_eq_self hx, used_eq_self hy, opc_of_opOfOpc ho,
    packWord_of_fields hr]

/-- Settles O14: the word has the operation's `OPC`, zeros elsewhere as its format asks, and the operands in its fields. -/
theorem decodeOfEncodeIsTheInstruction : Obligations.DecodeOfEncodeIsTheInstruction := decode_encode

/-- Settles O15: the fields that the operation does not use are 0 in an accepted word, so the packed fields are the word. -/
theorem encodeOfDecodeIsTheWord : Obligations.EncodeOfDecodeIsTheWord := fun _ _ => encode_of_decode

end Sys2Proof
end

section
/-! SUPPORT. Which words are legal (30_encoding.md R46, R47): by the rows of the opcode table, and by the three grounds on which a
word is illegal. -/

namespace Sys2Proof

/-! ### The rows of the opcode table (R46) -/

theorem Op.mem_all (o : Op) : o ∈ Op.all := by cases o <;> decide

/-- The table has one row for each operation, in the order of R45. -/
theorem opcodeRows_map_op : opcodeRows.map OpcodeRow.op = Op.all := rfl

theorem exists_opcodeRow (o : Op) : ∃ r ∈ opcodeRows, r.op = o := by
  rw [← List.mem_map, opcodeRows_map_op]
  exact Op.mem_all o

theorem opcodeRow_eq_of_op {r₁ r₂ : OpcodeRow} (h₁ : r₁ ∈ opcodeRows) (h₂ : r₂ ∈ opcodeRows) (h : r₁.op = r₂.op) :
    r₁ = r₂ := by
  have hdistinct : (opcodeRows.map OpcodeRow.op).Nodup := by rw [opcodeRows_map_op]; decide
  exact List.inj_on_of_nodup_map hdistinct h₁ h₂ h

/-- A word is legal exactly when some row matches it, and is then the operation of that row. -/
theorem decode_ok_iff_row (w : Word) (i : Instr) :
    decode w = .ok i ↔
      ∃ r ∈ opcodeRows, w &&& r.mask = r.matchBits ∧ i = r.op.build (aOf w) (bOf w) (xOf w) (yOf w) := by
  rw [decode_ok_iff]
  constructor
  · rintro ⟨o, ho, hr, hunused, rfl⟩
    obtain ⟨r, hrow, rfl⟩ := exists_opcodeRow o
    exact ⟨r, hrow, (row_matches_iff w hrow).mpr ⟨ho, hr, hunused⟩, rfl⟩
  · rintro ⟨r, hrow, hw, rfl⟩
    obtain ⟨ho, hr, hunused⟩ := (row_matches_iff w hrow).mp hw
    exact ⟨r.op, ho, hr, hunused, rfl⟩

/-- Settles O16: a row matches a word exactly when the decoder selects its operation, and there is one row per operation. -/
theorem decodesToOpIffTableRowMatches : Obligations.DecodesToOpIffTableRowMatches := by
  intro w
  refine ⟨fun o => ⟨fun h => ?_, ?_⟩, fun hnone => ?_, fun r₁ h₁ r₂ h₂ hw₁ hw₂ => ?_⟩
  · obtain ⟨r, hrow, hw, hbuild⟩ := (decode_ok_iff_row w _).mp h
    have hop := congrArg Instr.op hbuild
    rw [build_op, build_op] at hop
    exact ⟨r, hrow, hop.symm, hw⟩
  · rintro ⟨r, hrow, rfl, hw⟩
    exact words_of_row_decode hrow w hw
  · rcases hd : decode w with e | i
    · exact ⟨e, rfl⟩
    · obtain ⟨r, hrow, hw, -⟩ := (decode_ok_iff_row w i).mp hd
      exact absurd hw (hnone r hrow)
  · have hop₁ := ((row_matches_iff w h₁).mp hw₁).1
    have hop₂ := ((row_matches_iff w h₂).mp hw₂).1
    exact opcodeRow_eq_of_op h₁ h₂ (Option.some.inj (hop₁.symm.trans hop₂))

/-! ### The grounds on which a word is illegal (R47) -/

theorem opc_injective : Function.Injective Op.opc := fun o o' h => by
  rw [← Option.some.injEq, ← opOfOpc_opc, h, opOfOpc_opc]

/-- The values of `OPC` of the operations that satisfy `p`, in the order of R45. -/
def opcsWith (p : Op → Bool) : List Byte := (Op.all.filter p).map Op.opc

theorem opc_mem_opcsWith (p : Op → Bool) (o : Op) : o.opc ∈ opcsWith p ↔ p o = true := by
  rw [opcsWith, List.mem_map_of_injective opc_injective, List.mem_filter]
  exact and_iff_right (Op.mem_all o)

theorem not_mem_opcsWith_of_unassigned {opc : Byte} (h : opOfOpc opc = none) (p : Op → Bool) : opc ∉ opcsWith p := by
  intro hmem
  obtain ⟨o, -, hopc⟩ := List.mem_map.mp hmem
  exact (opOfOpc_none_iff opc).mp h o hopc

/-- The three grounds of R47: an `OPC` of no operation, a nonzero `R`, a nonzero field that the format does not use. -/
def HasIllegalGround (w : Word) : Prop :=
  opcOf w ∉ opcsWith (fun _ => true) ∨ rOf w ≠ 0 ∨
    (opcOf w ∉ opcsWith (·.format.usesA) ∧ aOf w ≠ 0) ∨ (opcOf w ∉ opcsWith (·.format.usesB) ∧ bOf w ≠ 0) ∨
    (opcOf w ∉ opcsWith (·.format.usesX) ∧ xOf w ≠ 0) ∨ (opcOf w ∉ opcsWith (·.format.usesY) ∧ yOf w ≠ 0)

/-- The grounds that are left for a word whose `OPC` is that of an operation. -/
theorem hasIllegalGround_iff_of_opc {w : Word} {o : Op} (h : o.opc = opcOf w) :
    HasIllegalGround w ↔ ¬ (rOf w = 0 ∧ unusedFieldsZero o.format w = true) := by
  simp only [HasIllegalGround, ← h, opc_mem_opcsWith, unusedFieldsZero_iff, not_true_eq_false, false_or, not_and_or, not_or,
    ne_eq]

/-- A word is an operation exactly when there is no ground against it. -/
theorem exists_decode_ok_iff (w : Word) : (∃ i, decode w = .ok i) ↔ ¬ HasIllegalGround w := by
  simp only [decode_ok_iff]
  rcases ho : opOfOpc (opcOf w) with _ | o
  · have hground : HasIllegalGround w := .inl (not_mem_opcsWith_of_unassigned ho _)
    simp [hground]
  · rw [hasIllegalGround_iff_of_opc (opc_of_opOfOpc ho), not_not]
    simp

/-- Settles O17: the lists of the statement are those of the operations whose format uses the field. -/
theorem wordIsIllegalOnExactlyThreeGrounds : Obligations.WordIsIllegalOnExactlyThreeGrounds := by
  intro w opc known usesA usesB usesX usesY illegal
  have hlegal : (∃ i, decode w = .ok i) ↔ ¬ illegal := exists_decode_ok_iff w
  constructor
  · intro hill s
    rcases Machine.stepWord_cases w s with ⟨e, -, hs⟩ | ⟨i, hd, -⟩
    · exact ⟨_, hs, Machine.respond_onlyResponds _ _ _ _ s, Machine.respond_responds _ _ _ s⟩
    · exact absurd hill (hlegal.mp ⟨i, hd⟩)
  · intro hill
    obtain ⟨i, hd⟩ := hlegal.mpr hill
    exact ⟨i, hd, opc_of_decode hd, fun s => Machine.stepWord_ok s hd⟩

/-- Settles O18: each word written out is run through the decoder. -/
theorem wordsOfTheSpecDecode : Obligations.WordsOfTheSpecDecode :=
  ⟨rfl, rfl, rfl, rfl, rfl, rfl, rfl, rfl, rfl, rfl, rfl⟩

end Sys2Proof
end

section
/-! SUPPORT. Assembler lines (30_encoding.md R48, R49): the operands of a line of each format as field values, and the words that
operation lines and pseudo-instruction lines present. -/

namespace Sys2Proof.Machine

/-! ### The operands of a line and the fields they write -/

/-- A line presents the operation with the values that its literals write. -/
theorem opInstr_of_lineOperands {o : Op} {f : Format} {args : List Literal} {a b : Nat} {x y : Int}
    (h : LineOperands f args a b x y) (hf : o.format = f) :
    opInstr o args = some (o.build (BitVec.ofNat 8 a) (BitVec.ofNat 8 b) (BitVec.ofInt 16 x) (BitVec.ofInt 16 y)) := by
  cases h <;> simp only [opInstr, hf]
  case none => rfl
  case a ha => rw [toByte_eq ha]; rfl
  case ab ha hb => rw [toByte_eq ha, toByte_eq hb]; rfl
  case x hx => rw [hx.1]; rfl
  case y hy => rw [hy.1]; rfl
  case ax ha hx => rw [toByte_eq ha, hx.1]; rfl
  case ay ha hy => rw [toByte_eq ha, hy.1]; rfl
  case axy ha hx hy => rw [toByte_eq ha, hx.1, hy.1]; rfl
  case xy hx hy => rw [hx.1, hy.1]; rfl

/-- The values of the literals lie in the range of their fields. -/
theorem LineOperands.in_range {f : Format} {args : List Literal} {a b : Nat} {x y : Int}
    (h : LineOperands f args a b x y) :
    a ≤ 255 ∧ b ≤ 255 ∧ (-32768 ≤ x ∧ x ≤ 32767) ∧ -32768 ≤ y ∧ y ≤ 32767 := by
  cases h <;> omega

/-- A field that the format does not use is not written, and so is 0. -/
theorem LineOperands.unused_zero {f : Format} {args : List Literal} {a b : Nat} {x y : Int}
    (h : LineOperands f args a b x y) :
    (f.usesA = true ∨ BitVec.ofNat 8 a = 0) ∧ (f.usesB = true ∨ BitVec.ofNat 8 b = 0) ∧
      (f.usesX = true ∨ BitVec.ofInt 16 x = 0) ∧ (f.usesY = true ∨ BitVec.ofInt 16 y = 0) := by
  cases h <;> simp [Format.usesA, Format.usesB, Format.usesX, Format.usesY]

/-- The word of the instruction that a line writes has the values of its literals in its fields. -/
theorem LineOperands.hasFields {o : Op} {args : List Literal} {a b : Nat} {x y : Int}
    (h : LineOperands o.format args a b x y) :
    HasFields (encode (o.build (BitVec.ofNat 8 a) (BitVec.ofNat 8 b) (BitVec.ofInt 16 x) (BitVec.ofInt 16 y)))
      o.opc a b x y := by
  obtain ⟨ha, hb, hx, hy⟩ := h.in_range
  obtain ⟨ua, ub, ux, uy⟩ := h.unused_zero
  rw [encode_build, used_eq_self ua, used_eq_self ub, used_eq_self ux, used_eq_self uy]
  refine ⟨opcOf_packWord .., ?_, ?_, rOf_packWord .., ?_, ?_⟩
  · rw [← aOf, aOf_packWord, BitVec.toNat_ofNat, Nat.mod_eq_of_lt (by omega)]
  · rw [← bOf, bOf_packWord, BitVec.toNat_ofNat, Nat.mod_eq_of_lt (by omega)]
  · rw [← xOf, xOf_packWord, BitVec.toInt_ofInt, Int.bmod_eq_of_le (by omega) (by omega)]
  · rw [← yOf, yOf_packWord, BitVec.toInt_ofInt, Int.bmod_eq_of_le (by omega) (by omega)]

theorem byteLiteral_hex (v : Byte) : ByteLiteral (.hex v.toNat) v.toNat :=
  ⟨.inr rfl, Nat.le_of_lt_succ v.isLt⟩

theorem hundredthsLiteral_dec (v : Half) : HundredthsLiteral (.dec v.toInt) v.toInt :=
  ⟨rfl, v.le_toInt, Int.le_of_lt_add_one v.toInt_lt⟩

/-- Every word with zeros in the fields that a format does not use has its fields written by operands of that format. -/
theorem exists_lineOperands {f : Format} {w : Word} (h : unusedFieldsZero f w = true) :
    ∃ args, LineOperands f args (aOf w).toNat (bOf w).toNat (xOf w).toInt (yOf w).toInt := by
  obtain ⟨ha, hb, hx, hy⟩ := (unusedFieldsZero_iff f w).mp h
  have la := byteLiteral_hex (aOf w)
  have lb := byteLiteral_hex (bOf w)
  have lx := hundredthsLiteral_dec (xOf w)
  have ly := hundredthsLiteral_dec (yOf w)
  cases f <;> simp only [Format.usesA, Format.usesB, Format.usesX, Format.usesY, Bool.false_eq_true, true_or, false_or]
    at ha hb hx hy
  case F0 => rw [ha, hb, hx, hy]; exact ⟨_, .none⟩
  case FA => rw [hb, hx, hy]; exact ⟨_, .a la⟩
  case FAB => rw [hx, hy]; exact ⟨_, .ab la lb⟩
  case FX => rw [ha, hb, hy]; exact ⟨_, .x lx⟩
  case FY => rw [ha, hb, hx]; exact ⟨_, .y ly⟩
  case FAX => rw [hb, hy]; exact ⟨_, .ax la lx⟩
  case FAY => rw [hb, hx]; exact ⟨_, .ay la ly⟩
  case FAXY => rw [hb]; exact ⟨_, .axy la lx ly⟩
  case FXY => rw [ha, hb]; exact ⟨_, .xy lx ly⟩

/-! ### The lines of an operation -/

theorem lineWords_op {o : Op} {args : List Literal} {a b : Nat} {x y : Int} (h : LineOperands o.format args a b x y) :
    lineWords (.op o args) =
      some [encode (o.build (BitVec.ofNat 8 a) (BitVec.ofNat 8 b) (BitVec.ofInt 16 x) (BitVec.ofInt 16 y))] := by
  have hwf : (AsmLine.op o args).wellFormed = true := (argsWellFormed_iff _ _).mpr ⟨a, b, x, y, h⟩
  simp only [lineWords, hwf, if_true, opInstr_of_lineOperands h rfl, Option.map_some]

/-- Settles O19: the line's instruction has the literals' values in its word; the operand checks accept no other operands; and
the fields of an instruction's word are written by literals of its format. -/
theorem assemblerLinesWriteExactlyTheOperations : Obligations.AssemblerLinesWriteExactlyTheOperations := by
  refine ⟨fun o args a b x y h => ?_, fun o args ws h => ?_, fun i => ?_⟩
  · exact ⟨_, _, lineWords_op h, h.hasFields, decode_encode _, build_op ..⟩
  · have hwf : (AsmLine.op o args).wellFormed = true := wellFormed_of_lineWords (by rw [h]; exact Option.some_ne_none ws)
    exact (argsWellFormed_iff o.format args).mp hwf
  · obtain ⟨-, -, hunused⟩ := encode_fields i
    obtain ⟨args, h⟩ := exists_lineOperands hunused
    refine ⟨args, ?_⟩
    rw [lineWords_op h, BitVec.ofNat_toNat, BitVec.ofNat_toNat, BitVec.ofInt_toInt, BitVec.ofInt_toInt,
      BitVec.setWidth_eq, BitVec.setWidth_eq, build_encode]

/-! ### The lines of `.word` and of the pseudo-instructions -/

theorem lineWords_word {n : Nat} (h : n < 2 ^ 64) : lineWords (.word (.hex n)) = some [(Literal.hex n).toWord] := by
  have hwf : (AsmLine.word (.hex n)).wellFormed = true := (isWord_iff _).mpr ⟨n, rfl, h⟩
  simp only [lineWords, hwf, if_true]

theorem lineWords_frame {c y : Literal} {bytes : List Literal} {nc ny : Nat} {ns : List Nat} (hc : ByteLiteral c nc)
    (hy : ByteLiteral y ny) (hbytes : List.Forall₂ ByteLiteral bytes ns) :
    lineWords (.frame (c :: y :: bytes)) =
      some ((frameOps (BitVec.ofNat 8 nc) (BitVec.ofNat 8 ny) (ns.map (BitVec.ofNat 8))).map encode) := by
  have hwf : (AsmLine.frame (c :: y :: bytes)).wellFormed = true := by
    rw [AsmLine.wellFormed, all_isByte (.cons hc (.cons hy hbytes)), Bool.and_true, decide_eq_true_eq]
    exact Nat.le_add_left 2 bytes.length
  simp only [lineWords, hwf, if_true, toByte_eq hc, toByte_eq hy, map_toByte_eq hbytes]

theorem lineWords_recv {bytes : List Literal} {ns : List Nat} (h : List.Forall₂ ByteLiteral bytes ns) :
    lineWords (.recv bytes) = some ((recvOps (ns.map (BitVec.ofNat 8))).map encode) := by
  have hwf : (AsmLine.recv bytes).wellFormed = true := all_isByte h
  simp only [lineWords, hwf, if_true, map_toByte_eq h]

/-- The literals of pairs of hundredths in range are as many as PRESET takes, and each is one it takes. -/
theorem preset_wellFormed {vs : List (Int × Int)}
    (h : ∀ v ∈ vs, -32768 ≤ v.1 ∧ v.1 ≤ 32767 ∧ -32768 ≤ v.2 ∧ v.2 ≤ 32767) :
    (AsmLine.preset (vs.flatMap fun v => [.dec v.1, .dec v.2])).wellFormed = true := by
  simp only [AsmLine.wellFormed, Bool.and_eq_true, decide_eq_true_eq]
  constructor
  · have hlen : (vs.flatMap fun v => [Literal.dec v.1, .dec v.2]).length = vs.length * 2 := by simp [List.length_flatMap]
    rw [hlen, Nat.mul_mod_left]
  · rw [List.all_flatMap, List.all_eq_true]
    intro v hv
    simpa [Literal.isHundredths, and_assoc] using h v hv

theorem lineWords_preset {vs : List (Int × Int)}
    (h : ∀ v ∈ vs, -32768 ≤ v.1 ∧ v.1 ≤ 32767 ∧ -32768 ≤ v.2 ∧ v.2 ≤ 32767) :
    lineWords (.preset (vs.flatMap fun v => [.dec v.1, .dec v.2])) =
      some ((presetOps (vs.map fun v => ⟨BitVec.ofInt 16 v.1, BitVec.ofInt 16 v.2⟩)).map encode) := by
  simp only [lineWords, preset_wellFormed h, if_true, literalPairs_flatMap]

theorem byteLiterals_of_all_isByte {args : List Literal} (h : args.all Literal.isByte = true) :
    ∀ l ∈ args, ∃ n, ByteLiteral l n := fun l hl => (isByte_iff l).mp (List.all_eq_true.mp h l hl)

theorem operands_of_frame {args : List Literal} (h : (AsmLine.frame args).wellFormed = true) :
    2 ≤ args.length ∧ ∀ l ∈ args, ∃ n, ByteLiteral l n := by
  rw [AsmLine.wellFormed, Bool.and_eq_true, decide_eq_true_eq] at h
  exact h.imp_right byteLiterals_of_all_isByte

theorem operands_of_preset {args : List Literal} (h : (AsmLine.preset args).wellFormed = true) :
    args.length % 2 = 0 ∧ ∀ l ∈ args, ∃ v, HundredthsLiteral l v := by
  rw [AsmLine.wellFormed, Bool.and_eq_true, decide_eq_true_eq] at h
  exact h.imp_right fun hall l hl => (isHundredths_iff l).mp (List.all_eq_true.mp hall l hl)

/-- Settles O58: the words of each line, the expansions as R49 lists them, and the operands that the checks let through. -/
theorem pseudoLinesPresentTheirExpansions : Obligations.PseudoLinesPresentTheirExpansions :=
  ⟨fun _ hn => ⟨_, lineWords_word hn, toWord_toNat hn⟩,
    fun _ _ _ _ _ _ hc hy hbytes => lineWords_frame hc hy hbytes,
    fun _ _ h => lineWords_recv h,
    fun _ h => lineWords_preset h,
    fun _ _ _ => rfl, fun _ => rfl, fun _ => rfl,
    fun l h => (isWord_iff l).mp (wellFormed_of_lineWords h),
    fun _ h => operands_of_frame (wellFormed_of_lineWords h),
    fun _ h => byteLiterals_of_all_isByte (wellFormed_of_lineWords h),
    fun _ h => operands_of_preset (wellFormed_of_lineWords h)⟩

end Sys2Proof.Machine
end

section
/-! SUPPORT. Running encoded operations, and the pushes of a list to an empty staging buffer (10_state.md R16 to R18): said once for
the three buffers, the pushes fill the buffer up to its capacity and set its flag when that is not the whole list. -/

namespace Sys2Proof.Machine

/-! ### Running encoded operations -/

theorem stepWord_encode (i : Instr) (s : State) : stepWord (encode i) s = exec i s := stepWord_ok s (decode_encode i)

/-- Operations that end in `t`, and then one more. -/
theorem runWords_encode_append {is : List Instr} {s t : State} (h : runWords (is.map encode) s = .next t) (i : Instr) :
    runWords ((is ++ [i]).map encode) s = exec i t := by
  obtain ⟨u, hu, -⟩ := exec_performs i t
  rw [List.map_append, runWords_append_next h, hu]
  exact runWords_cons_next (ws := []) ((stepWord_encode i t).trans hu)

/-! ### Pushing a list to a staging buffer -/

/-- `push` is the push operation (R50, R52, R71) of the buffer that `load` sets together with its flag and the response: it appends
the item where there is room, and else sets the flag. -/
def Stages {α : Type} (capacity : Nat) (push : α → Instr) (load : List α → Bool → Option Response → State → State) : Prop :=
  ∀ (x : α) (buf : List α) (ovf : Bool) (r : Option Response) (s : State),
    (buf.length = capacity ∧ ∃ r', exec (push x) (load buf ovf r s) = .next (load buf true r' s)) ∨
    (buf.length ≠ capacity ∧ ∃ r', exec (push x) (load buf ovf r s) = .next (load (buf ++ [x]) ovf r' s))

/-- The block with `pay`, its flag and the response replaced. -/
def loadPay (buf : List Byte) (ovf : Bool) (r : Option Response) (s : State) : State :=
  { s with pay := buf, payOvf := ovf, resp := r }

/-- The block with `rx`, its flag and the response replaced. -/
def loadRx (buf : List Byte) (ovf : Bool) (r : Option Response) (s : State) : State :=
  { s with rx := buf, rxOvf := ovf, resp := r }

/-- The block with `ps`, its flag and the response replaced. -/
def loadPs (buf : List PresetPair) (ovf : Bool) (r : Option Response) (s : State) : State :=
  { s with ps := buf, psOvf := ovf, resp := r }

theorem pushPay_stages : Stages 255 .pushPay loadPay := fun x _ _ _ _ =>
  (exec_pushPay_cases x _).imp (fun ⟨hfull, hs⟩ => ⟨hfull, _, hs⟩) (fun ⟨hroom, hs⟩ => ⟨hroom, _, hs⟩)

theorem pushRx_stages : Stages 261 .pushRx loadRx := fun x _ _ _ _ =>
  (exec_pushRx_cases x _).imp (fun ⟨hfull, hs⟩ => ⟨hfull, _, hs⟩) (fun ⟨hroom, hs⟩ => ⟨hroom, _, hs⟩)

theorem stagePreset_stages : Stages 8 (fun p => .stagePreset p.gain p.q) loadPs := fun p _ _ _ _ =>
  (exec_stagePreset_cases p.gain p.q _).imp (fun ⟨hfull, hs⟩ => ⟨hfull, _, hs⟩) (fun ⟨hroom, hs⟩ => ⟨hroom, _, hs⟩)

variable {α : Type} {capacity : Nat} {push : α → Instr} {load : List α → Bool → Option Response → State → State}

/-- After all pushes of a list to an empty buffer, the buffer holds as much of the list as it can, and its flag is set exactly when
that is not all: by induction on the list from its end. -/
theorem Stages.run_pushes (h : Stages capacity push load) (xs : List α) (r : Option Response) (s : State) :
    ∃ r', runWords ((xs.map push).map encode) (load [] false r s) =
      .next (load (xs.take capacity) (decide (capacity < xs.length)) r' s) := by
  induction xs using List.reverseRecOn with
  | nil => exact ⟨r, by simp [runWords]⟩
  | append_singleton xs x ih =>
    obtain ⟨r₁, hrun⟩ := ih
    rw [List.map_append, List.map_singleton, runWords_encode_append hrun, List.length_append, List.length_singleton]
    rcases h x (xs.take capacity) (decide (capacity < xs.length)) r₁ s with ⟨hfull, r₂, hs⟩ | ⟨hroom, r₂, hs⟩
    · rw [List.length_take] at hfull
      have hbuf : (xs ++ [x]).take capacity = xs.take capacity := List.take_append_of_le_length (by omega)
      have hovf : decide (capacity < xs.length + 1) = true := decide_eq_true (by omega)
      exact ⟨r₂, by rw [hs, hbuf, hovf]⟩
    · rw [List.length_take] at hroom
      have hbuf : (xs ++ [x]).take capacity = xs.take capacity ++ [x] := by
        have hfits : (xs ++ [x]).length ≤ capacity := by rw [List.length_append, List.length_singleton]; omega
        rw [List.take_of_length_le hfits, List.take_of_length_le (by omega)]
      have hovf : decide (capacity < xs.length + 1) = decide (capacity < xs.length) := decide_eq_decide.mpr (by omega)
      exact ⟨r₂, by rw [hs, hbuf, hovf]⟩

/-- A list that fits is in the buffer whole. -/
theorem Stages.run_pushes_of_fits (h : Stages capacity push load) {xs : List α} (hfits : xs.length ≤ capacity)
    (r : Option Response) (s : State) :
    ∃ r', runWords ((xs.map push).map encode) (load [] false r s) = .next (load xs false r' s) := by
  obtain ⟨r', hrun⟩ := h.run_pushes xs r s
  rw [List.take_of_length_le hfits, decide_eq_false (Nat.not_lt.mpr hfits)] at hrun
  exact ⟨r', hrun⟩

/-- A list that does not fit leaves the flag set. -/
theorem Stages.run_pushes_of_overflows (h : Stages capacity push load) {xs : List α} (hover : capacity < xs.length)
    (r : Option Response) (s : State) :
    ∃ buf r', runWords ((xs.map push).map encode) (load [] false r s) = .next (load buf true r' s) := by
  obtain ⟨r', hrun⟩ := h.run_pushes xs r s
  rw [decide_eq_true hover] at hrun
  exact ⟨_, r', hrun⟩

end Sys2Proof.Machine
end

section
/-! SUPPORT. The operation lists of FRAME, RECV and PRESET (30_encoding.md R49) run from an empty staging buffer: the pushes, and the
consumer at the end of the list, which answers and leaves that buffer as it was before. -/

namespace Sys2Proof.Machine

/-! ### FRAME -/

theorem loadPay_self {s : State} (hpay : s.pay = []) (hovf : s.payOvf = false) : loadPay [] false s.resp s = s := by
  rw [loadPay, ← hpay, ← hovf]

theorem run_frameOps_of_fits {s : State} (hpay : s.pay = []) (hovf : s.payOvf = false) (c y : Byte) {p : List Byte}
    (hfits : p.length ≤ 255) : runWords ((frameOps c y p).map encode) s = .next (doneOut (frame c y p) s) := by
  have hs := loadPay_self hpay hovf
  obtain ⟨r, hrun⟩ := pushPay_stages.run_pushes_of_fits hfits s.resp s
  rw [hs] at hrun
  calc runWords ((frameOps c y p).map encode) s
      = exec (.encode c y) (loadPay p false r s) := runWords_encode_append hrun _
    _ = .next (doneOut (frame c y p) (loadPay [] false s.resp s)) := rfl
    _ = .next (doneOut (frame c y p) s) := by rw [hs]

theorem run_frameOps_of_overflows {s : State} (hpay : s.pay = []) (hovf : s.payOvf = false) (c y : Byte) {p : List Byte}
    (hover : 255 < p.length) : runWords ((frameOps c y p).map encode) s = .next (raise .argErr s) := by
  have hs := loadPay_self hpay hovf
  obtain ⟨buf, r, hrun⟩ := pushPay_stages.run_pushes_of_overflows hover s.resp s
  rw [hs] at hrun
  calc runWords ((frameOps c y p).map encode) s
      = exec (.encode c y) (loadPay buf true r s) := runWords_encode_append hrun _
    _ = .next (raise .argErr (loadPay [] false s.resp s)) := rfl
    _ = .next (raise .argErr s) := by rw [hs]

/-- Settles O26: the pushes leave the whole payload, or the flag set, and ENCODE emits the frame or fails. -/
theorem frameSequenceEncodesExactlyShortPayloads : Obligations.FrameSequenceEncodesExactlyShortPayloads := by
  intro c y p s hpay hovf
  rcases Nat.lt_or_ge 255 p.length with hover | hfits
  · exact ⟨_, run_frameOps_of_overflows hpay hovf c y hover, respond_onlyResponds .., fun h => absurd h (Nat.not_le.mpr hover),
      fun _ => respond_responds ..⟩
  · exact ⟨_, run_frameOps_of_fits hpay hovf c y hfits, respond_onlyResponds .., fun _ => respond_responds ..,
      fun h => absurd h (Nat.not_lt.mpr hfits)⟩

/-! ### RECV -/

theorem loadRx_self {s : State} (hrx : s.rx = []) (hovf : s.rxOvf = false) : loadRx [] false s.resp s = s := by
  rw [loadRx, ← hrx, ← hovf]

theorem run_recvOps_of_fits {s : State} (hrx : s.rx = []) (hovf : s.rxOvf = false) {b : List Byte}
    (hfits : b.length ≤ 261) : runWords ((recvOps b).map encode) s = .next (respond .ok 0 (notificationEvt b) [] s) := by
  have hs := loadRx_self hrx hovf
  obtain ⟨r, hrun⟩ := pushRx_stages.run_pushes_of_fits hfits s.resp s
  rw [hs] at hrun
  calc runWords ((recvOps b).map encode) s
      = exec .decode (loadRx b false r s) := runWords_encode_append hrun _
    _ = .next (respond .ok 0 (notificationEvt b) [] (loadRx [] false s.resp s)) := rfl
    _ = .next (respond .ok 0 (notificationEvt b) [] s) := by rw [hs]

theorem run_recvOps_of_overflows {s : State} (hrx : s.rx = []) (hovf : s.rxOvf = false) {b : List Byte}
    (hover : 261 < b.length) :
    runWords ((recvOps b).map encode) s = .next (respond .rxOverflow 0 unrecognizedEvt [] s) := by
  have hs := loadRx_self hrx hovf
  obtain ⟨buf, r, hrun⟩ := pushRx_stages.run_pushes_of_overflows hover s.resp s
  rw [hs] at hrun
  calc runWords ((recvOps b).map encode) s
      = exec .decode (loadRx buf true r s) := runWords_encode_append hrun _
    _ = .next (respond .rxOverflow 0 unrecognizedEvt [] (loadRx [] false s.resp s)) := rfl
    _ = .next (respond .rxOverflow 0 unrecognizedEvt [] s) := by rw [hs]

/-- Settles O27: the pushes leave the whole notification, or the flag set, and DECODE reports it or the overflow. -/
theorem recvSequenceDecodesExactlyFittingNotifications :
    Obligations.RecvSequenceDecodesExactlyFittingNotifications := by
  intro b s hrx hovf
  rcases Nat.lt_or_ge 261 b.length with hover | hfits
  · exact ⟨_, run_recvOps_of_overflows hrx hovf hover, respond_onlyResponds .., fun h => absurd h (Nat.not_le.mpr hover),
      fun _ => ⟨unrecognizedEvt, respond_reports .., rfl, rfl⟩⟩
  · exact ⟨_, run_recvOps_of_fits hrx hovf hfits, respond_onlyResponds .., fun _ => respond_reports ..,
      fun h => absurd h (Nat.not_lt.mpr hfits)⟩

/-! ### PRESET -/

theorem loadPs_self {s : State} (hps : s.ps = []) (hovf : s.psOvf = false) : loadPs [] false s.resp s = s := by
  rw [loadPs, ← hps, ← hovf]

/-- The bands of exactly 8 pairs are written. -/
theorem run_presetOps_of_eight {s : State} (hps : s.ps = []) (hovf : s.psOvf = false) {pairs : List PresetPair}
    (h : pairs.length = 8) :
    ∃ bands, presetBands Config.roundMode pairs = some bands ∧
      runWords ((presetOps pairs).map encode) s = .next (done { s with band := bands }) := by
  have hs := loadPs_self hps hovf
  obtain ⟨r, hrun⟩ := stagePreset_stages.run_pushes_of_fits h.le s.resp s
  rw [hs] at hrun
  rcases exec_applyPreset_cases (loadPs pairs false r s) with ⟨hbad, -⟩ | ⟨-, -, bands, hbands, hexec⟩
  · exact absurd h (hbad.resolve_left nofun)
  · refine ⟨bands, hbands, ?_⟩
    calc runWords ((presetOps pairs).map encode) s
        = .next (done (dropPs { loadPs pairs false r s with band := bands })) := (runWords_encode_append hrun _).trans hexec
      _ = .next (done { loadPs [] false s.resp s with band := bands }) := rfl
      _ = .next (done { s with band := bands }) := by rw [hs]

/-- Fewer pairs are too few, and more set the flag. -/
theorem run_presetOps_of_not_eight {s : State} (hps : s.ps = []) (hovf : s.psOvf = false) {pairs : List PresetPair}
    (h : pairs.length ≠ 8) : runWords ((presetOps pairs).map encode) s = .next (raise .argErr s) := by
  have hs := loadPs_self hps hovf
  obtain ⟨r, hrun⟩ := stagePreset_stages.run_pushes pairs s.resp s
  rw [hs] at hrun
  rcases exec_applyPreset_cases (loadPs (pairs.take 8) (decide (8 < pairs.length)) r s) with
    ⟨-, hexec⟩ | ⟨hclear, hlen, -⟩
  · calc runWords ((presetOps pairs).map encode) s
        = .next (raise .argErr (dropPs (loadPs (pairs.take 8) (decide (8 < pairs.length)) r s))) :=
          (runWords_encode_append hrun _).trans hexec
      _ = .next (raise .argErr (loadPs [] false s.resp s)) := rfl
      _ = .next (raise .argErr s) := by rw [hs]
  · have hfits : ¬ 8 < pairs.length := of_decide_eq_false hclear
    have hfull : min 8 pairs.length = 8 := List.length_take.symm.trans hlen
    omega

/-- Settles O43: the pairs are all staged and 8, or APPLY_PRESET finds the flag set or too few pairs. -/
theorem presetSequenceAppliesExactlyEightPairs : Obligations.PresetSequenceAppliesExactlyEightPairs := by
  intro pairs s hps hovf
  by_cases h : pairs.length = 8
  · obtain ⟨bands, hbands, hrun⟩ := run_presetOps_of_eight hps hovf h
    obtain ⟨bands', hbands', hget⟩ := presetBands_eight (m := Config.roundMode) h
    obtain rfl : bands = bands' := Option.some.inj (hbands.symm.trans hbands')
    exact ⟨_, hrun, respond_onlyResponds .., fun _ => ⟨respond_responds .., hget⟩, absurd h⟩
  · exact ⟨_, run_presetOps_of_not_eight hps hovf h, respond_onlyResponds .., fun h' => absurd h' h,
      fun _ => ⟨respond_responds .., rfl⟩⟩

end Sys2Proof.Machine
end

section
/-! SUPPORT. The parser's answers, said once: everything that `classify` (41_codec.md R54), `raw_view` (R55) and `devinfo_parse`
(44_devinfo.md R76) can be, with the bytes that lead there. -/

namespace Sys2Proof.Machine

/-! ### The shape of a notification -/

/-- A notification with the magic and its bytes 3 and 4, written out. -/
theorem cons_of_magic {b : List Byte} {c b4 : Byte} (hmagic : b.take 3 = [0x51, 0x58, 0x57]) (hc : b[3]? = some c)
    (hb4 : b[4]? = some b4) : ∃ p, b = 0x51 :: 0x58 :: 0x57 :: c :: b4 :: p := by
  have htail : b.drop 3 = c :: b4 :: b.drop 5 := by
    rw [List.drop_eq_getElem?_toList_append, hc, List.drop_eq_getElem?_toList_append, hb4]
    rfl
  exact ⟨b.drop 5, by rw [← List.take_append_drop 3 b, hmagic, htail]; rfl⟩

/-! ### `classify` -/

theorem plainEvt_noDeviceInfo (kind : EvtKind) (valid : Bool) (code : Byte) : NoDeviceInfo (plainEvt kind valid code) :=
  ⟨rfl, rfl, rfl, plainEvt_name ..⟩

/-- Everything a classification can be. -/
theorem classify_cases (b : List Byte) :
    ((b.length < 5 ∨ b.take 3 ≠ [0x51, 0x58, 0x57]) ∧ classify b = unrecognizedEvt) ∨
    (∃ c b4 p, b = 0x51 :: 0x58 :: 0x57 :: c :: b4 :: p ∧ classify b = classifyCode c b4 p) := by
  match b with
  | [] | [_] | [_, _] | [_, _, _] | [_, _, _, _] => exact .inl ⟨.inl (by simp), rfl⟩
  | b0 :: b1 :: b2 :: c :: b4 :: p =>
    by_cases h : isMagic b0 b1 b2 = true
    · obtain ⟨rfl, rfl, rfl⟩ := (isMagic_iff b0 b1 b2).mp h
      exact .inr ⟨c, b4, p, rfl, rfl⟩
    · refine .inl ⟨.inr fun hmagic => h ?_, if_neg h⟩
      rw [isMagic_iff]
      simpa using hmagic

/-- Five bytes that begin with the magic are neither too few nor of another magic. -/
theorem frame_head_of_cons (c b4 : Byte) (p : List Byte) :
    ¬ ((0x51 :: 0x58 :: 0x57 :: c :: b4 :: p).length < 5 ∨
      (0x51 :: 0x58 :: 0x57 :: c :: b4 :: p).take 3 ≠ [0x51, 0x58, 0x57]) := by
  rintro (hshort | hmagic)
  · simp only [List.length_cons] at hshort
    omega
  · exact hmagic rfl

theorem classify_of_no_frame {b : List Byte} (h : b.length < 5 ∨ b.take 3 ≠ [0x51, 0x58, 0x57]) :
    classify b = unrecognizedEvt := by
  rcases classify_cases b with ⟨-, hclass⟩ | ⟨c, b4, p, rfl, -⟩
  · exact hclass
  · exact absurd h (frame_head_of_cons c b4 p)

/-- Everything that parsing an info payload can give: with fewer than 5 bytes nothing, else the battery bytes and the name. -/
theorem devinfoParse_cases (p : List Byte) :
    (p.length < 5 ∧ devinfoParse p = none) ∨
    (5 ≤ p.length ∧ ∃ l r, p[2]? = some l ∧ p[3]? = some r ∧ devinfoParse p = some ⟨l, r, nameScan p⟩) := by
  match p with
  | [] | [_] | [_, _] | [_, _, _] | [_, _, _, _] => exact .inl ⟨by simp, rfl⟩
  | _ :: _ :: l :: r :: _ :: _ => exact .inr ⟨by simp, l, r, rfl, rfl, rfl⟩

theorem deviceInfoEvt_nameLen {d : DeviceInfo} (h : d.name.length ≤ 31) :
    (deviceInfoEvt d).nameLen.toNat = d.name.length :=
  Nat.mod_eq_of_lt (Nat.lt_succ_of_le h)

/-- Every code with the magic is reported, with whatever kind. -/
theorem classifyCode_code (c b4 : Byte) (p : List Byte) :
    (classifyCode c b4 p).codeValid = true ∧ (classifyCode c b4 p).code = c := by
  unfold classifyCode
  split
  case isTrue h => exact ⟨rfl, h.symm⟩
  split
  case isTrue h => exact ⟨rfl, h.symm⟩
  split
  case isFalse => exact ⟨rfl, rfl⟩
  case isTrue h =>
    split
    case isTrue => exact ⟨rfl, h.symm⟩
    split <;> exact ⟨rfl, h.symm⟩

theorem classifyCode_devinfo_subcode {b4 : Byte} (p : List Byte) (h : b4 ≠ 0x02) :
    classifyCode 0x27 b4 p = plainEvt .unrecognized true 0x27 :=
  if_pos h

theorem classifyCode_unknown {c : Byte} (b4 : Byte) (p : List Byte) (h1 : c ≠ 0x10) (h2 : c ≠ 0x20) (h3 : c ≠ 0x27) :
    classifyCode c b4 p = plainEvt .unrecognized true c := by
  rw [classifyCode, if_neg h1, if_neg h2, if_neg h3]

theorem classifyCode_devinfo_short {p : List Byte} (h : devinfoParse p = none) :
    classifyCode 0x27 0x02 p = plainEvt .formatError true 0x27 := by
  simp [classifyCode, h]

theorem classifyCode_devinfo {p : List Byte} {d : DeviceInfo} (h : devinfoParse p = some d) :
    classifyCode 0x27 0x02 p = deviceInfoEvt d := by
  simp [classifyCode, h]

/-! ### `raw_view` -/

theorem rawView_of_exact_length {cmd type len : Byte} {payload : List Byte} (h : payload.length = len.toNat) :
    rawView (0x51 :: 0x58 :: 0x57 :: cmd :: type :: len :: payload) = ⟨true, cmd, type, len, payload⟩ :=
  if_pos ⟨rfl, h⟩

/-- Everything a raw view can be. -/
theorem rawView_cases (b : List Byte) :
    rawView b = noRaw ∨
    (∃ cmd type len payload, b = 0x51 :: 0x58 :: 0x57 :: cmd :: type :: len :: payload ∧ payload.length = len.toNat) := by
  unfold rawView
  split
  next b0 b1 b2 cmd type len payload =>
    split
    next h =>
      obtain ⟨hmagic, hlen⟩ := h
      obtain ⟨rfl, rfl, rfl⟩ := (isMagic_iff b0 b1 b2).mp hmagic
      exact .inr ⟨cmd, type, len, payload, rfl, hlen⟩
    next => exact .inl rfl
  next => exact .inl rfl

/-- The length byte of a frame, for every payload that it can count (R39). -/
theorem length_byte {p : List Byte} (h : p.length ≤ 255) : (BitVec.ofNat 8 p.length : Byte).toNat = p.length := by
  rw [BitVec.toNat_ofNat]
  omega

theorem rawView_of_no_frame {b : List Byte} (h : b.length < 5 ∨ b.take 3 ≠ [0x51, 0x58, 0x57]) : rawView b = noRaw := by
  rcases rawView_cases b with hview | ⟨cmd, type, len, payload, rfl, -⟩
  · exact hview
  · exact absurd h (frame_head_of_cons cmd type (len :: payload))

/-- ENCODE's frame is read back (R56). -/
theorem rawView_frame (c y : Byte) {p : List Byte} (h : p.length ≤ 255) :
    rawView (frame c y p) = ⟨true, c, y, BitVec.ofNat 8 p.length, p⟩ := by
  rw [frame_eq]
  exact rawView_of_exact_length (length_byte h).symm

end Sys2Proof.Machine
end

section
/-! SUPPORT. The statements about PacketCodec (41_codec.md R50 to R57). -/

namespace Sys2Proof.Machine

/-! ### Consuming a buffer whose flag is clear -/

theorem dropPay_of_flag_clear {s : State} (h : s.payOvf = false) : dropPay s = { s with pay := [] } := by
  rw [dropPay, ← h]

theorem dropRx_of_flag_clear {s : State} (h : s.rxOvf = false) : dropRx s = { s with rx := [] } := by
  rw [dropRx, ← h]

/-! ### The statements -/

/-- Settles O28: FRAME emits the frame of the payload, it fits `rx`, and its raw view has its parts. -/
theorem encodedFrameDecodesToItsParts : Obligations.EncodedFrameDecodesToItsParts := by
  intro c y p s hlen hpay hpayOvf hrx hrxOvf
  have hfits : (frame c y p).length ≤ 261 := by rw [frame_length]; omega
  refine ⟨_, run_frameOps_of_fits hpay hpayOvf c y hlen, _, rfl, rfl, _, run_recvOps_of_fits hrx hrxOvf hfits, _, rfl, rfl, ?_⟩
  have hraw : (notificationEvt (frame c y p)).raw = ⟨true, c, y, BitVec.ofNat 8 p.length, p⟩ := rawView_frame c y hlen
  rw [hraw]
  exact ⟨rfl, rfl, rfl, length_byte hlen, rfl, rfl, rfl, rfl, rfl, rfl, rfl, rfl⟩

/-- Settles O24: a notification with the magic is written out by its bytes, and each code has its classification. -/
theorem classificationFollowsTheBytes : Obligations.ClassificationFollowsTheBytes := by
  intro b e
  refine ⟨fun h => ?_, fun c b4 hmagic hc hb4 => ?_⟩
  · have he : e = unrecognizedEvt := classify_of_no_frame h
    rw [he]
    exact ⟨rfl, rfl, rfl, plainEvt_noDeviceInfo ..⟩
  · obtain ⟨p, rfl⟩ := cons_of_magic hmagic hc hb4
    have he : e = classifyCode c b4 p := rfl
    obtain ⟨hvalid, hcode⟩ := classifyCode_code c b4 p
    rw [he]
    refine ⟨hvalid, hcode, ?_, ?_, ?_, ?_, ?_, ?_⟩
    · rintro rfl
      exact ⟨rfl, plainEvt_noDeviceInfo ..⟩
    · rintro rfl
      exact ⟨rfl, plainEvt_noDeviceInfo ..⟩
    · rintro rfl hsub
      rw [classifyCode_devinfo_subcode p hsub]
      exact ⟨rfl, plainEvt_noDeviceInfo ..⟩
    · rintro rfl rfl (hshort : p.length < 5)
      rcases devinfoParse_cases p with ⟨-, hparse⟩ | ⟨hlong, -⟩
      · rw [classifyCode_devinfo_short hparse]
        exact ⟨rfl, plainEvt_noDeviceInfo ..⟩
      · omega
    · rintro rfl rfl (hlong : 5 ≤ p.length)
      rcases devinfoParse_cases p with ⟨hshort, -⟩ | ⟨-, l, r, hl, hr, hparse⟩
      · omega
      · obtain ⟨hname, -⟩ := nameScan_short_printable p
        rw [classifyCode_devinfo hparse]
        exact ⟨rfl, hl, hr, deviceInfoEvt_nameLen hname, padName_toList _ hname⟩
    · intro h1 h2 h3
      rw [classifyCode_unknown b4 p h1 h2 h3]
      exact ⟨rfl, plainEvt_noDeviceInfo ..⟩

/-- Settles O25: a raw view is empty, or it is of a notification with the magic and the length that its byte 5 says. -/
theorem rawViewNeedsTheExactLength : Obligations.RawViewNeedsTheExactLength := by
  refine fun b => ⟨fun cmd y len hmagic hcmd hy hlen hcount => ?_, fun hno => ?_⟩
  · obtain ⟨_ | ⟨len', payload⟩, rfl⟩ := cons_of_magic hmagic hcmd hy
    · cases hlen
    · cases hlen
      exact rawView_of_exact_length (by simp at hcount; omega)
  · rcases rawView_cases b with hview | ⟨cmd, y, len, payload, rfl, hcount⟩
    · exact hview
    · exact absurd ⟨rfl, len, rfl, by simp; omega⟩ hno

/-- Settles O29: a classification by code and a raw view each need the magic and 5 bytes. -/
theorem nonFrameIsUnrecognized : Obligations.NonFrameIsUnrecognized := by
  intro s h
  rcases exec_decode_cases s with ⟨hovf, hs⟩ | ⟨hovf, hs⟩
  · rw [hovf]
    exact ⟨_, hs, _, respond_reports .., rfl, rfl, rfl⟩
  · have hclass : classify s.rx = unrecognizedEvt := classify_of_no_frame h.symm
    have hraw : rawView s.rx = noRaw := rawView_of_no_frame h.symm
    rw [hovf, hs, notificationEvt, hclass, hraw]
    exact ⟨_, rfl, _, respond_reports .., rfl, rfl, rfl⟩

/-- Settles O20: `pay` is full, and the push sets the flag, or has room for the byte. -/
theorem pushPayAppendsOrRefuses : Obligations.PushPayAppendsOrRefuses := by
  refine ⟨words_of_row_decode (r := ⟨.pushPay, _, _⟩) (by decide), fun a s => ?_⟩
  rcases exec_pushPay_cases a s with ⟨hfull, hs⟩ | ⟨hroom, hs⟩
  · exact ⟨absurd hfull, fun _ => ⟨_, hs, respond_onlyResponds .., respond_responds ..⟩⟩
  · exact ⟨fun _ => ⟨_, hs, respond_onlyResponds .., respond_responds ..⟩, fun h => absurd h hroom⟩

/-- Settles O21: by the flag; where it is clear, the length byte counts the payload, which has at most 255 bytes. -/
theorem encodeEmitsTheFrameOrFails : Obligations.EncodeEmitsTheFrameOrFails := by
  refine ⟨words_of_row_decode (r := ⟨.encode, _, _⟩) (by decide), fun c y s hlegal => ?_⟩
  obtain ⟨hlen, -⟩ := hlegal
  rcases exec_encode_cases c y s with ⟨hovf, hs⟩ | ⟨hovf, hs⟩
  · exact ⟨fun h => absurd (h.symm.trans hovf) nofun, fun _ => ⟨_, hs, respond_onlyResponds .., respond_responds ..⟩⟩
  · rw [dropPay_of_flag_clear hovf] at hs
    exact ⟨fun _ => ⟨_, hs, respond_onlyResponds .., _, length_byte hlen, respond_responds ..⟩,
      fun h => absurd (h.symm.trans hovf) nofun⟩

/-- Settles O22: `rx` is full, and the push sets the flag, or has room for the byte. -/
theorem pushRxAppendsOrRefuses : Obligations.PushRxAppendsOrRefuses := by
  refine ⟨words_of_row_decode (r := ⟨.pushRx, _, _⟩) (by decide), fun a s => ?_⟩
  rcases exec_pushRx_cases a s with ⟨hfull, hs⟩ | ⟨hroom, hs⟩
  · exact ⟨absurd hfull, fun _ => ⟨_, hs, respond_onlyResponds .., respond_responds ..⟩⟩
  · exact ⟨fun _ => ⟨_, hs, respond_onlyResponds .., respond_responds ..⟩, fun h => absurd h hroom⟩

/-- Settles O23: by the flag; where it is clear, emptying `rx` is all that DECODE does to the state. -/
theorem decodeReportsTheNotification : Obligations.DecodeReportsTheNotification := by
  refine ⟨words_of_row_decode (r := ⟨.decode, _, _⟩) (by decide), fun s => ?_⟩
  rcases exec_decode_cases s with ⟨hovf, hs⟩ | ⟨hovf, hs⟩
  · exact ⟨fun h => absurd (h.symm.trans hovf) nofun, fun _ => ⟨_, hs, respond_onlyResponds ..,
      unrecognizedEvt, respond_reports .., rfl, rfl, rfl, plainEvt_noDeviceInfo .., rfl⟩⟩
  · rw [dropRx_of_flag_clear hovf] at hs
    exact ⟨fun _ => ⟨_, hs, respond_onlyResponds .., respond_reports ..⟩, fun h => absurd (h.symm.trans hovf) nofun⟩

end Sys2Proof.Machine
end

section
/-! SUPPORT. The conversions of 42_gainq.md R58 to R61: from which operand on the rounding reaches a given value, the code that a
rounded value has, and how a code and its value give each other back. -/

namespace Sys2Proof.Machine

/-! ### The steps of the rounding -/

/-- The tie between `k - 1` and `k` goes to `k`: that is away from zero, or `k` is even (R8). -/
def TieGoesUp : RoundMode → Int → Prop
  | .halfAway, k => 0 < k
  | .halfEven, k => k % 2 = 0

theorem round10_bounds (m : RoundMode) (c : Int) : c - 5 ≤ 10 * round10 m c ∧ 10 * round10 m c ≤ c + 5 := by
  have hnear := abs_le.mp (round10_within_half m c)
  omega

/-- On the tie between `k - 1` and `k` the rounding is one of the two, and the tie rule of the mode picks it. -/
theorem le_round10_tie_iff (m : RoundMode) (k : Int) : k ≤ round10 m (10 * k - 5) ↔ TieGoesUp m k := by
  have hnear := round10_bounds m (10 * k - 5)
  have htie : (10 * k - 5).natAbs % 10 = 5 := by omega
  cases m with
  | halfAway =>
    have haway := round10_halfAway_tie htie
    simp only [Int.abs_eq_natAbs] at haway
    simp only [TieGoesUp]
    omega
  | halfEven =>
    have heven := round10_halfEven_tie htie
    simp only [TieGoesUp]
    omega

/-- The rounding reaches `k` above the tie between `k - 1` and `k`, and on the tie itself when that goes up. -/
theorem le_round10_iff (m : RoundMode) (k c : Int) :
    k ≤ round10 m c ↔ 10 * k - 5 < c ∨ (c = 10 * k - 5 ∧ TieGoesUp m k) := by
  by_cases htie : c = 10 * k - 5
  · rw [htie, le_round10_tie_iff]
    simp
  · have hnear := round10_bounds m c
    omega

/-- The upper boundaries of R58 and R60, and the lower one of R60, are ties below a positive odd value, which the two modes break
in opposite directions. -/
theorem le_round10_iff_of_odd {k : Int} (hpos : 0 < k) (hodd : k % 2 = 1) (m : RoundMode) (c : Int) :
    k ≤ round10 m c ↔ if m = .halfAway then 10 * k - 5 ≤ c else 10 * k - 4 ≤ c := by
  rw [le_round10_iff]
  cases m with
  | halfAway => simp only [TieGoesUp, if_true]; omega
  | halfEven => simp only [TieGoesUp, reduceCtorEq, if_false]; omega

theorem round10_mono (m : RoundMode) {c d : Int} (h : c ≤ d) : round10 m c ≤ round10 m d := by
  rw [le_round10_iff]
  rcases (le_round10_iff m _ c).mp le_rfl with hc | ⟨hc, hup⟩
  · exact .inl (hc.trans_le h)
  · rcases h.lt_or_eq with hlt | rfl
    · exact .inl (hc.symm.trans_lt hlt)
    · exact .inr ⟨hc, hup⟩

@[simp] theorem round10_mul_ten (m : RoundMode) (k : Int) : round10 m (k * 10) = k := by
  have hnear := round10_bounds m (k * 10)
  omega

/-- An i16 operand is rounded to at most 3277 on either side of 0. -/
theorem abs_round10_le (m : RoundMode) {c : Int} (hlo : -32768 ≤ c) (hhi : c ≤ 32767) : |round10 m c| ≤ 3277 := by
  have hnear := round10_bounds m c
  rw [abs_le]
  omega

/-! ### The code of a value -/

theorem toNat_clamp_byte (v : Int) : ((BitVec.ofInt 8 (clamp v 0 255)).toNat : Int) = min 255 (max 0 v) := by
  rw [BitVec.toNat_ofInt, clamp]
  omega

theorem encodeGain_toNat (m : RoundMode) (c : Int) :
    ((encodeGain m c).toNat : Int) = min 255 (max 0 (round10 m c + 120)) := toNat_clamp_byte _

theorem encodeQ_toNat (m : RoundMode) (c : Int) : ((encodeQ m c).toNat : Int) = min 255 (max 0 (round10 m c)) :=
  toNat_clamp_byte _

/-- The tie at -1195 goes to -120 in both modes: it is away from zero, and even. -/
theorem encodeGain_eq_zero_iff (m : RoundMode) (c : Int) : (encodeGain m c).toNat = 0 ↔ c ≤ -1195 := by
  have hcode := encodeGain_toNat m c
  have htie : ¬ TieGoesUp m (-119) := by cases m <;> simp [TieGoesUp]
  have hstep := le_round10_iff m (-119) c
  simp only [htie, and_false, or_false] at hstep
  omega

theorem encodeGain_eq_255_iff (m : RoundMode) (c : Int) :
    (encodeGain m c).toNat = 255 ↔ if m = .halfAway then 1345 ≤ c else 1346 ≤ c := by
  have hcode := encodeGain_toNat m c
  refine Iff.trans ?_ (le_round10_iff_of_odd (k := 135) (by decide) (by decide) m c)
  omega

theorem encodeQ_eq_zero_iff (m : RoundMode) (c : Int) :
    (encodeQ m c).toNat = 0 ↔ if m = .halfAway then c ≤ 4 else c ≤ 5 := by
  have hcode := encodeQ_toNat m c
  have hstep := le_round10_iff_of_odd (k := 1) (by decide) (by decide) m c
  split_ifs at hstep ⊢ <;> omega

theorem encodeQ_eq_255_iff (m : RoundMode) (c : Int) :
    (encodeQ m c).toNat = 255 ↔ if m = .halfAway then 2545 ≤ c else 2546 ≤ c := by
  have hcode := encodeQ_toNat m c
  refine Iff.trans ?_ (le_round10_iff_of_odd (k := 255) (by decide) (by decide) m c)
  omega

theorem encodeGain_mono (m : RoundMode) {c d : Int} (h : c ≤ d) : (encodeGain m c).toNat ≤ (encodeGain m d).toNat := by
  have hround := round10_mono m h
  have hc := encodeGain_toNat m c
  have hd := encodeGain_toNat m d
  omega

theorem encodeQ_mono (m : RoundMode) {c d : Int} (h : c ≤ d) : (encodeQ m c).toNat ≤ (encodeQ m d).toNat := by
  have hround := round10_mono m h
  have hc := encodeQ_toNat m c
  have hd := encodeQ_toNat m d
  omega

/-! ### The value of a code -/

theorem decodeGain_bounds (b : Byte) : -1200 ≤ decodeGain b ∧ decodeGain b ≤ 1350 := by
  have hb := b.isLt
  rw [decodeGain]
  omega

theorem decodeQ_le (b : Byte) : decodeQ b ≤ 2550 := by
  have hb := b.isLt
  rw [decodeQ]
  omega

/-- The value of a code is a multiple of 10, so it is rounded exactly, and the code is in range, so it is not clamped. -/
@[simp] theorem encodeGain_decodeGain (m : RoundMode) (b : Byte) : encodeGain m (decodeGain b) = b := by
  have hcode := encodeGain_toNat m (decodeGain b)
  have hround : round10 m (decodeGain b) = b.toNat - 120 := round10_mul_ten m _
  rw [hround] at hcode
  exact BitVec.eq_of_toNat_eq (by omega)

@[simp] theorem encodeQ_decodeQ (m : RoundMode) (b : Byte) : encodeQ m (decodeQ b) = b := by
  have hcode := encodeQ_toNat m (decodeQ b)
  have hround : round10 m (decodeQ b) = b.toNat := by rw [decodeQ, Nat.cast_mul, Nat.cast_ofNat, round10_mul_ten]
  rw [hround] at hcode
  exact BitVec.eq_of_toNat_eq (by omega)

/-- In this range the clamp does nothing, so the error is that of the rounding. -/
theorem decodeGain_encodeGain_within_half (m : RoundMode) {c : Int} (hlo : -1195 ≤ c) (hhi : c ≤ 1345) :
    |decodeGain (encodeGain m c) - c| ≤ 5 := by
  have hnear := round10_bounds m c
  have hcode := encodeGain_toNat m c
  rw [decodeGain, abs_le]
  omega

/-! ### The statements -/

/-- Settles O31: the clamp is at a boundary exactly when the rounding is below -119 or reaches 135. -/
theorem encodeGainClampsAtTheExactBoundaries : Obligations.EncodeGainClampsAtTheExactBoundaries := by
  intro m c hlo hhi
  exact ⟨encodeGain_toNat m c, abs_round10_le m hlo hhi, encodeGain_eq_zero_iff m c, encodeGain_eq_255_iff m c⟩

/-- Settles O32: the clamp is at a boundary exactly when the rounding is below 1 or reaches 255. -/
theorem encodeQClampsAtTheExactBoundaries : Obligations.EncodeQClampsAtTheExactBoundaries :=
  fun m c _ _ => ⟨encodeQ_toNat m c, encodeQ_eq_zero_iff m c, encodeQ_eq_255_iff m c⟩

/-- Settles O35: the laws of R66 are those of the rounding, and the source's three points are the values of codes 0, 120 and
255. -/
theorem gainAndQArithmeticLaws : Obligations.GainAndQArithmeticLaws := by
  intro m
  refine ⟨fun b => ⟨encodeGain_decodeGain m b, encodeQ_decodeQ m b⟩,
    fun c => decodeGain_encodeGain_within_half m, by decide, by decide,
    fun c lo hi hlo hhi => ?clampIdempotent,
    fun c d h => ⟨encodeGain_mono m h, encodeQ_mono m h⟩,
    ⟨encodeGain_decodeGain m 0, encodeGain_decodeGain m 120, encodeGain_decodeGain m 255,
      fun c _ _ => Nat.le_of_lt_succ (encodeGain m c).isLt⟩,
    round10_neg m,
    fun c hlo hhi => ?encodeNoWrap,
    fun b => ⟨?decodeNoWrap, (decodeQ_le b).trans_lt (by decide)⟩⟩
  case clampIdempotent => rw [max_eq_right hlo, min_eq_right hhi]
  case encodeNoWrap =>
    have hround := abs_le.mp (abs_round10_le m hlo hhi)
    rw [abs_lt, abs_lt]
    omega
  case decodeNoWrap =>
    have hb := decodeGain_bounds b
    rw [abs_lt]
    omega

end Sys2Proof.Machine
end

section
/-! SUPPORT. The operations of 42_gainq.md (R62 to R65): each answers one conversion of its operand and does nothing else. -/

namespace Sys2Proof.Machine

/-! ### The answers -/

theorem exec_encGain (x : Half) (s : State) :
    ∃ res : Half, res.toNat = (encodeGain .halfAway x.toInt).toNat ∧ exec (.encGain x) s = .next (doneRes res s) :=
  ⟨_, BitVec.toNat_setWidth_of_le (by decide), rfl⟩

theorem exec_encQ (y : Half) (s : State) :
    ∃ res : Half, res.toNat = (encodeQ .halfAway y.toInt).toNat ∧ exec (.encQ y) s = .next (doneRes res s) :=
  ⟨_, BitVec.toNat_setWidth_of_le (by decide), rfl⟩

theorem exec_decGain (a : Byte) (s : State) :
    ∃ res : Half, res.toInt = decodeGain a ∧ exec (.decGain a) s = .next (doneRes res s) := by
  have ha := decodeGain_bounds a
  exact ⟨_, BitVec.toInt_ofInt_eq_self (by decide) (by omega) (by omega), rfl⟩

/-- The value of a Q code is small enough to be the same number with and without a sign. -/
theorem exec_decQ (a : Byte) (s : State) :
    ∃ res : Half, res.toNat = decodeQ a ∧ res.toInt = decodeQ a ∧ exec (.decQ a) s = .next (doneRes res s) := by
  have ha := decodeQ_le a
  have hres : (BitVec.ofNat 16 (decodeQ a)).toNat = decodeQ a := by
    rw [BitVec.toNat_ofNat]
    omega
  have hsign : (BitVec.ofNat 16 (decodeQ a)).toInt = decodeQ a := by
    rw [BitVec.toInt_eq_toNat_of_lt (by omega), hres]
  exact ⟨_, hres, hsign, rfl⟩

/-! ### The statements -/

/-- Settles O36: the answer of the first operation is the value of the code, and its code is the answer of the second. -/
theorem encodingADecodedCodeGivesItBack : Obligations.EncodingADecodedCodeGivesItBack := by
  refine fun a s => ⟨?_, ?_⟩
  · obtain ⟨res, hres, hdec⟩ := exec_decGain a s
    obtain ⟨code, hcode, henc⟩ := exec_encGain res (doneRes res s)
    exact ⟨_, hdec, _, rfl, _, henc, _, rfl, by rw [hcode, hres, encodeGain_decodeGain]⟩
  · obtain ⟨res, -, hres, hdec⟩ := exec_decQ a s
    obtain ⟨code, hcode, henc⟩ := exec_encQ res (doneRes res s)
    exact ⟨_, hdec, _, rfl, _, henc, _, rfl, by rw [hcode, hres, encodeQ_decodeQ]⟩

/-- Settles O33: the result port is wider than a code, so zero extension keeps it. -/
theorem encGainAndEncQAnswerTheCode : Obligations.EncGainAndEncQAnswerTheCode := by
  refine ⟨words_of_row_decode (r := ⟨.encGain, _, _⟩) (by decide), words_of_row_decode (r := ⟨.encQ, _, _⟩) (by decide),
    fun v s => ⟨?_, ?_⟩⟩
  · obtain ⟨res, hres, hs⟩ := exec_encGain v s
    exact ⟨_, hs, respond_onlyResponds .., res, hres, respond_responds ..⟩
  · obtain ⟨res, hres, hs⟩ := exec_encQ v s
    exact ⟨_, hs, respond_onlyResponds .., res, hres, respond_responds ..⟩

/-- Settles O34: the result port holds the value of every code, of a gain with its sign. -/
theorem decGainAndDecQAnswerHundredths : Obligations.DecGainAndDecQAnswerHundredths := by
  refine ⟨words_of_row_decode (r := ⟨.decGain, _, _⟩) (by decide), words_of_row_decode (r := ⟨.decQ, _, _⟩) (by decide),
    fun a s => ⟨?_, ?_⟩⟩
  · obtain ⟨res, hres, hs⟩ := exec_decGain a s
    exact ⟨_, hs, respond_onlyResponds .., res, hres, respond_responds ..⟩
  · obtain ⟨res, hres, -, hs⟩ := exec_decQ a s
    exact ⟨_, hs, respond_onlyResponds .., res, hres, respond_responds ..⟩

end Sys2Proof.Machine
end

section
/-! SUPPORT. The statements about EqState (43_eqstate.md R67 to R75, without the PRESET sequence): the operations that write one band
share one lemma, and a band's word is its two codes side by side. -/

namespace Sys2Proof.Machine

/-! ### The CustomEq payload -/

/-- Settles O45: the payload is written out as eight triplets, one for each band. -/
theorem customEqPayloadIsBandMajor : Obligations.CustomEqPayloadIsBandMajor := by
  refine fun band => ⟨customEqPayload_length band, fun i => ?_⟩
  rw [customEqPayload_eq]
  fin_cases i <;> exact ⟨rfl, rfl, rfl⟩

/-- Settles O46: the OUT stream is the payload, and nothing but the response changes. -/
theorem eqPayloadEmitsThePayload : Obligations.EqPayloadEmitsThePayload :=
  ⟨words_of_row_decode (r := ⟨.eqPayload, _, _⟩) (by decide),
    fun _ => ⟨_, rfl, respond_onlyResponds .., respond_responds ..⟩⟩

/-! ### Writing one band -/

/-- An operation that is refused on an index out of range, and otherwise replaces the entry of its band by `code` of it, changes
that entry alone, or nothing. -/
theorem replaces_band_or_refuses {a : Byte} {s : State} {o : Result} {code : BandCode → BandCode}
    (h : (7 < a.toNat ∧ o = .next (raise .rangeErr s)) ∨
      (∃ i : Fin 8, i.val = a.toNat ∧ o = .next (done (writeBand i (code s.band[i]) s)))) :
    (a.toNat ≤ 7 → NextWith o fun t => OnlyResponds { s with band := t.band } t ∧ Responds t .ok 0 [] ∧
      ∀ j : Fin 8, t.band[j] = if j.val = a.toNat then code s.band[j] else s.band[j]) ∧
    (7 < a.toNat → NextWith o fun t => OnlyResponds s t ∧ Responds t .rangeErr 0 []) := by
  rcases h with ⟨hout, ho⟩ | ⟨i, hi, ho⟩
  · exact ⟨fun hin => absurd hin (Nat.not_le.mpr hout), fun _ => ⟨_, ho, respond_onlyResponds .., respond_responds ..⟩⟩
  · refine ⟨fun _ => ⟨_, ho, respond_onlyResponds .., respond_responds .., fun j => ?_⟩, fun hout => by omega⟩
    rw [done_eq_respond, respond_band, writeBand_get, ← hi]
    by_cases hj : j = i
    · rw [hj, if_pos rfl, if_pos rfl]
    · rw [if_neg hj, if_neg (Fin.val_ne_of_ne hj)]

/-- Settles O37: the entry is replaced by the codes of both operands. -/
theorem setBandWritesBothCodes : Obligations.SetBandWritesBothCodes :=
  ⟨words_of_row_decode (r := ⟨.setBand, _, _⟩) (by decide), fun a x y s =>
    replaces_band_or_refuses (code := fun _ => ⟨encodeGain .halfAway x.toInt, encodeQ .halfAway y.toInt⟩)
      (exec_setBand_cases a x y s)⟩

/-- Settles O38: the entry is replaced by the new gain code and its old Q code. -/
theorem setBandGainWritesTheGainOnly : Obligations.SetBandGainWritesTheGainOnly :=
  ⟨words_of_row_decode (r := ⟨.setBandGain, _, _⟩) (by decide), fun a x s =>
    replaces_band_or_refuses (code := fun v => ⟨encodeGain .halfAway x.toInt, v.q⟩) (exec_setBandGain_cases a x s)⟩

/-- Settles O39: the entry is replaced by its old gain code and the new Q code. -/
theorem setBandQWritesTheQOnly : Obligations.SetBandQWritesTheQOnly :=
  ⟨words_of_row_decode (r := ⟨.setBandQ, _, _⟩) (by decide), fun a y s =>
    replaces_band_or_refuses (code := fun v => ⟨v.g, encodeQ .halfAway y.toInt⟩) (exec_setBandQ_cases a y s)⟩

/-! ### Reading one band -/

theorem bandWord_eq_append (v : BandCode) : bandWord v = v.g ++ v.q := by
  apply BitVec.eq_of_toNat_eq
  have hg := v.g.isLt
  have hq := v.q.isLt
  rw [bandWord, BitVec.toNat_ofNat, append_toNat]
  omega

/-- Settles O40: the answer is the gain code and the Q code of the band side by side. -/
theorem readBandAnswersBothCodes : Obligations.ReadBandAnswersBothCodes := by
  refine ⟨words_of_row_decode (r := ⟨.readBand, _, _⟩) (by decide), fun a s => ?_⟩
  rcases exec_readBand_cases a s with ⟨hout, hs⟩ | ⟨i, hi, hs⟩
  · exact ⟨fun j hj => by omega, fun _ => ⟨_, hs, respond_onlyResponds .., respond_responds ..⟩⟩
  · refine ⟨fun j hj => ?_, fun hout => by omega⟩
    obtain rfl : j = i := Fin.ext (hj.trans hi.symm)
    rw [bandWord_eq_append] at hs
    exact ⟨_, hs, respond_onlyResponds .., _, respond_responds .., append_toNat _ _,
      BitVec.extractLsb'_append_eq_left, BitVec.extractLsb'_append_eq_right⟩

/-! ### Presets and the default -/

theorem dropPs_of_flag_clear {s : State} (h : s.psOvf = false) : dropPs s = { s with ps := [] } := by
  rw [dropPs, ← h]

/-- Settles O41: `ps` is full, and the push sets the flag, or has room for the pair. -/
theorem stagePresetAppendsOrRefuses : Obligations.StagePresetAppendsOrRefuses := by
  refine ⟨words_of_row_decode (r := ⟨.stagePreset, _, _⟩) (by decide), fun x y s => ?_⟩
  rcases exec_stagePreset_cases x y s with ⟨hfull, hs⟩ | ⟨hroom, hs⟩
  · exact ⟨absurd hfull, fun _ => ⟨_, hs, respond_onlyResponds .., respond_responds ..⟩⟩
  · exact ⟨fun _ => ⟨_, hs, respond_onlyResponds .., respond_responds ..⟩, fun h => absurd h hroom⟩

/-- Settles O42: the staged pairs are refused, or they are exactly 8 and each gives its band. -/
theorem applyPresetWritesAllBandsOrNone : Obligations.ApplyPresetWritesAllBandsOrNone := by
  refine ⟨words_of_row_decode (r := ⟨.applyPreset, _, _⟩) (by decide), fun s => ?_⟩
  rcases exec_applyPreset_cases s with ⟨hbad, hs⟩ | ⟨hclear, hlen, bands, hbands, hs⟩
  · refine ⟨fun hclear hlen => ?_, fun _ => ⟨_, hs, respond_onlyResponds .., respond_responds ..⟩⟩
    exact absurd hbad (by simp [hclear, hlen])
  · refine ⟨fun _ _ => ?_, fun hbad => absurd hbad (by simp [hclear, hlen])⟩
    obtain ⟨bands', hbands', hget⟩ := presetBands_eight (m := Config.roundMode) hlen
    obtain rfl : bands = bands' := Option.some.inj (hbands.symm.trans hbands')
    rw [dropPs_of_flag_clear (s := { s with band := bands }) hclear] at hs
    exact ⟨_, hs, respond_onlyResponds .., respond_responds .., hget⟩

theorem defaultBands_get (j : Fin 8) : defaultBands[j] = ⟨120, 7⟩ := Vector.getElem_replicate j.isLt

/-- Settles O44: every entry is the default one, and nothing else but the response changes. -/
theorem resetEqSetsTheDefaultBands : Obligations.ResetEqSetsTheDefaultBands :=
  ⟨words_of_row_decode (r := ⟨.resetEq, _, _⟩) (by decide),
    fun _ => ⟨_, rfl, respond_onlyResponds .., respond_responds .., defaultBands_get⟩⟩

end Sys2Proof.Machine
end

section
/-! SUPPORT. The statements about DeviceInfoParser (44_devinfo.md R76 to R81). -/

namespace Sys2Proof.Machine

/-! ### The acceptance test of R79 -/

/-- The length prefix determines the name of an accepted candidate. -/
theorem NameAccepted.unique {p : List Byte} {i : Nat} {a b : List Byte} (ha : NameAccepted p i a)
    (hb : NameAccepted p i b) : a = b :=
  Option.some.inj (((nameCandidate_iff p i a).mpr ha).symm.trans ((nameCandidate_iff p i b).mpr hb))

theorem NameAccepted.index_lt {p : List Byte} {i : Nat} {name : List Byte} (h : NameAccepted p i name) :
    i + 1 < p.length := by
  obtain ⟨k, -, -, hpos, -, hfits⟩ := h.length_eq
  omega

/-- A printable byte is at least 32 and a length prefix at most 31, so none is both (R81, property 3). -/
theorem NameAccepted.not_inside {p : List Byte} {i j : Nat} {name other : List Byte} (h : NameAccepted p i name)
    (hij : i < j) (hj : j < i + 1 + name.length) : ¬ NameAccepted p j other := by
  rintro ⟨k, hk, -, hsmall, -⟩
  obtain ⟨k', -, -, -, -, hprint, rfl⟩ := h
  rw [List.length_take] at hj
  obtain ⟨c, hc, hlow, -⟩ := hprint j (by omega) (by omega)
  obtain rfl : k = c := Option.some.inj (hk.symm.trans hc)
  omega

/-- An accepted name is a stretch of the payload, right behind its prefix. -/
theorem NameAccepted.stands_in_payload {p : List Byte} {i : Nat} {name : List Byte} (h : NameAccepted p i name) :
    i + 1 + name.length ≤ p.length ∧ name = (p.drop (i + 1)).take name.length := by
  obtain ⟨k, -, -, -, hfits, -, rfl⟩ := h
  rw [List.length_take_of_le (by rw [List.length_drop]; omega)]
  exact ⟨hfits, rfl⟩

/-! ### What the scan gives -/

/-- Everything `name_scan` can give: no candidate is accepted beyond the last index, so the scan misses none from 5 on. -/
theorem nameScan_cases (p : List Byte) :
    (∃ i, 5 ≤ i ∧ NameAccepted p i (nameScan p) ∧ ∀ j other, i < j → ¬ NameAccepted p j other) ∨
    (nameScan p = [] ∧ ∀ j other, 5 ≤ j → ¬ NameAccepted p j other) := by
  rcases nameScanDown_cases p (p.length - 5) with ⟨i, hi, -, hacc, hmax⟩ | ⟨hempty, hnone⟩
  · refine .inl ⟨i, hi, hacc, fun j other hij h => hmax j other hij ?_ h⟩
    have := h.index_lt
    omega
  · refine .inr ⟨hempty, fun j other hj h => hnone j other hj ?_ h⟩
    have := h.index_lt
    omega

/-! ### What the scan reads -/

/-- The acceptance test at an index reads nothing before it. -/
theorem nameCandidate_drop (p : List Byte) (m n : Nat) : nameCandidate (p.drop m) n = nameCandidate p (m + n) := by
  have hget : (p.drop m)[n]? = p[m + n]? := List.getElem?_drop
  rcases hp : p[m + n]? with _ | k
  · simp only [nameCandidate, hget, hp]
  · have hlt : m + n < p.length := (List.getElem?_eq_some_iff.mp hp).1
    have hfits : n + 1 + k.toNat ≤ p.length - m ↔ m + n + 1 + k.toNat ≤ p.length := by omega
    simp only [nameCandidate, hget, hp, List.drop_drop, List.length_drop, hfits, ← Nat.add_assoc]

theorem nameScanDown_of_drop_eq {p q : List Byte} (h : p.drop 5 = q.drop 5) (n : Nat) :
    nameScanDown p n = nameScanDown q n := by
  induction n with
  | zero => rfl
  | succ n ih =>
    have hcand : nameCandidate p (5 + n) = nameCandidate q (5 + n) := by
      rw [← nameCandidate_drop, h, nameCandidate_drop]
    simp only [nameScanDown, hcand, ih]

/-- The scan reads the bytes from index 5 on only. -/
theorem nameScan_of_drop_eq {p q : List Byte} (h : p.drop 5 = q.drop 5) : nameScan p = nameScan q := by
  have hlen : p.length - 5 = q.length - 5 := by simpa using congrArg List.length h
  rw [nameScan, hlen]
  exact nameScanDown_of_drop_eq h _

/-! ### The statements -/

/-- Settles O47: the two cases of the parser are those of the statement. -/
theorem devinfoParseReadsBatteriesAndName : Obligations.DevinfoParseReadsBatteriesAndName := by
  intro p
  rcases devinfoParse_cases p with ⟨hshort, hparse⟩ | ⟨hlong, l, r, hl, hr, hparse⟩
  · exact ⟨fun _ => hparse, fun _ _ hlong => by omega⟩
  · refine ⟨fun hshort => by omega, fun l' r' _ hl' hr' => ?_⟩
    obtain rfl : l = l' := Option.some.inj (hl.symm.trans hl')
    obtain rfl : r = r' := Option.some.inj (hr.symm.trans hr')
    exact hparse

/-- The parser reads the length, bytes 2 and 3, and the bytes from index 5 on only. -/
theorem devinfoParse_congr {p q : List Byte} (hlen : p.length = q.length) (h2 : p[2]? = q[2]?) (h3 : p[3]? = q[3]?)
    (h5 : p.drop 5 = q.drop 5) : devinfoParse p = devinfoParse q := by
  obtain ⟨hqshort, hqlong⟩ := devinfoParseReadsBatteriesAndName q
  rcases devinfoParse_cases p with ⟨hshort, hparse⟩ | ⟨hlong, l, r, hl, hr, hparse⟩
  · rw [hparse, hqshort (hlen ▸ hshort)]
  · rw [hparse, hqlong l r (hlen ▸ hlong) (h2 ▸ hl) (h3 ▸ hr), nameScan_of_drop_eq h5]

/-- Settles O48: the classification goes through the parser, which reads none of the three bytes. -/
theorem reservedInfoBytesAffectNoClassification : Obligations.ReservedInfoBytesAffectNoClassification := by
  intro p q hlen hsame
  have htail : p.drop 5 = q.drop 5 := List.ext_getElem? fun i => by
    rw [List.getElem?_drop, List.getElem?_drop]
    exact hsame (5 + i) (by omega) (by omega) (by omega)
  have hparse : devinfoParse p = devinfoParse q :=
    devinfoParse_congr hlen (hsame 2 nofun nofun nofun) (hsame 3 nofun nofun nofun) htail
  change classifyCode 0x27 0x02 p = classifyCode 0x27 0x02 q
  simp only [classifyCode, hparse]

/-- Settles O49: the scan's index and the given one are both the largest accepted index, so they are the same. -/
theorem nameScanTakesTheRightmostCandidate : Obligations.NameScanTakesTheRightmostCandidate := by
  intro p
  rcases nameScan_cases p with ⟨i, hi, hacc, hmax⟩ | ⟨hempty, hnone⟩
  · refine ⟨fun i' name _ hacc' hmax' => ?_, fun hnone => absurd hacc (hnone i _ hi)⟩
    rcases Nat.lt_trichotomy i i' with hlt | rfl | hgt
    · exact absurd hacc' (hmax i' name hlt)
    · exact hacc.unique hacc'
    · exact absurd hacc (hmax' i _ hgt)
  · exact ⟨fun i name hi hacc _ => absurd hacc (hnone i name hi), fun _ => hempty⟩

/-- Settles O50: each property is one of an accepted candidate, and a name that is not empty comes from one. -/
theorem nameScanProperties : Obligations.NameScanProperties := by
  intro p
  obtain ⟨hshort, hprint⟩ := nameScan_short_printable p
  refine ⟨hshort, hprint, fun name h => ?_, fun i name j other h => h.not_inside, fun hne => ?_⟩
  · have := h.index_lt
    omega
  · rcases nameScan_cases p with ⟨i, hi, hacc, -⟩ | ⟨hempty, -⟩
    · exact ⟨i + 1, by omega, hacc.stands_in_payload⟩
    · exact absurd hempty hne

end Sys2Proof.Machine
end

section
/-! SUPPORT. The statements about the command frame builders (45_frame_builders.md R84 to R86): a builder that is not refused answers
the frame of its own command, type and payload, as FRAME does. -/

namespace Sys2Proof.Machine

/-! ### The answers -/

theorem presetNumber_range (preset : Preset) :
    1 ≤ (Config.presetNumber preset).toNat ∧ (Config.presetNumber preset).toNat ≤ 4 := by
  cases preset <;> decide

theorem exec_buildSelectEq_presetNumber (preset : Preset) (s : State) :
    exec (.buildSelectEq (Config.presetNumber preset)) s =
      .next (doneOut (frame 0x10 0x01 [Config.presetNumber preset]) s) := by
  rcases exec_buildSelectEq_cases (Config.presetNumber preset) s with ⟨hbad, -⟩ | ⟨-, hs⟩
  · exact absurd (presetNumber_range preset) hbad
  · exact hs

theorem exec_buildCustomEq (s : State) :
    exec .buildCustomEq s = .next (doneOut (frame 0x20 0x03 (customEqPayload s.band)) s) := rfl

theorem exec_buildDevinfoReq (s : State) : exec .buildDevinfoReq s = .next (doneOut (frame 0x27 0x01 []) s) := rfl

/-- The length byte of the CustomEq frame is 24 (R85). -/
theorem frame_customEqPayload (c y : Byte) (band : Vector BandCode 8) :
    frame c y (customEqPayload band) = [0x51, 0x58, 0x57, c, y, 0x18] ++ customEqPayload band := by
  rw [frame_eq, customEqPayload_length]
  rfl

/-! ### The statements -/

/-- Settles O54: FRAME emits the frame of a payload that fits, and each builder's payload has at most 24 bytes. -/
theorem buildersEqualTheFrameSequence : Obligations.BuildersEqualTheFrameSequence := by
  rintro s i c y p hpay hovf (⟨preset, rfl, rfl, rfl, rfl⟩ | ⟨rfl, rfl, rfl, rfl⟩ | ⟨rfl, rfl, rfl, rfl⟩)
  · have hfits : [Config.presetNumber preset].length ≤ 255 := by rw [List.length_singleton]; decide
    exact ⟨_, exec_buildSelectEq_presetNumber preset s, run_frameOps_of_fits hpay hovf _ _ hfits⟩
  · have hfits : (customEqPayload s.band).length ≤ 255 := by rw [customEqPayload_length]; decide
    exact ⟨_, exec_buildCustomEq s, run_frameOps_of_fits hpay hovf _ _ hfits⟩
  · exact ⟨_, exec_buildDevinfoReq s, run_frameOps_of_fits hpay hovf _ _ (Nat.zero_le _)⟩

/-- Settles O51: the frame of a preset number is its seven bytes, and any other operand is refused. -/
theorem buildSelectEqEmitsTheFrameOrRefuses : Obligations.BuildSelectEqEmitsTheFrameOrRefuses := by
  refine ⟨words_of_row_decode (r := ⟨.buildSelectEq, _, _⟩) (by decide), fun a s => ?_⟩
  rcases exec_buildSelectEq_cases a s with ⟨hbad, hs⟩ | ⟨hok, hs⟩
  · exact ⟨fun hlo hhi => absurd ⟨hlo, hhi⟩ hbad, fun _ => ⟨_, hs, respond_onlyResponds .., respond_responds ..⟩⟩
  · exact ⟨fun _ _ => ⟨_, hs, respond_onlyResponds .., respond_responds ..⟩, fun hbad => by omega⟩

/-- Settles O52: the header's last byte counts the 24 bytes of the payload. -/
theorem buildCustomEqEmitsAllBands : Obligations.BuildCustomEqEmitsAllBands := by
  refine ⟨words_of_row_decode (r := ⟨.buildCustomEq, _, _⟩) (by decide), fun s => ?_⟩
  rw [← frame_customEqPayload]
  exact ⟨_, exec_buildCustomEq s, respond_onlyResponds .., respond_responds ..⟩

/-- Settles O53: the frame of the empty payload is the six header bytes. -/
theorem buildDevinfoReqEmitsTheRequest : Obligations.BuildDevinfoReqEmitsTheRequest :=
  ⟨words_of_row_decode (r := ⟨.buildDevinfoReq, _, _⟩) (by decide),
    fun s => ⟨_, exec_buildDevinfoReq s, respond_onlyResponds .., respond_responds ..⟩⟩

end Sys2Proof.Machine
end

section
/-! SUPPORT. The statements about the control operation and illegal words (46_control.md R87, R88). -/

namespace Sys2Proof.Machine

/-- The other case of `stepWord_ok`: the ground of the rejection does not reach the response. -/
theorem stepWord_error {w : Word} {e : DecodeReject} (s : State) (h : decode w = .error e) :
    stepWord w s = .next (illegalWord s) := by
  rcases stepWord_cases w s with ⟨-, -, hs⟩ | ⟨i, hi, -⟩
  · exact hs
  · rw [h] at hi
    cases hi

/-- The three buffers are emptied one after the other, each with its flag (R87). -/
theorem exec_clear (s : State) : exec .clear s =
    .next (done { s with pay := [], payOvf := false, rx := [], rxOvf := false, ps := [], psOvf := false }) := rfl

/-- Settles O4: the word is taken from the queue, and a rejected word only answers. -/
theorem illegalWordOnlyAnswersIllegalOp : Obligations.IllegalWordOnlyAnswersIllegalOp := by
  intro s w rest e hin hd
  have hstep : step s = .next (illegalWord { s with inputs := rest }) := by rw [step_command hin, stepWord_error _ hd]
  exact ⟨_, hstep, respond_onlyResponds .., respond_responds ..⟩

/-- Settles O55: nothing is written but the three buffers and their flags. -/
theorem clearDiscardsEveryStagedArgument : Obligations.ClearDiscardsEveryStagedArgument :=
  ⟨words_of_row_decode (r := ⟨.clear, _, _⟩) (by decide),
    fun s => ⟨_, exec_clear s, respond_onlyResponds .., respond_responds ..⟩⟩

end Sys2Proof.Machine
end

section
/-! SUPPORT. The statements about errors (60_exceptions.md R92, R93): the table of R92 is a relation, and an operation answers an error
status exactly when the relation holds for it. -/

namespace Sys2Proof.Machine

/-! ### The causes of the error statuses -/

/-- The rows of R92 that a legal operation can meet, one for each operation: in state `s` the operation has a cause to answer the
status. ILLEGAL_OP has no row here: an illegal word is no operation. -/
inductive ErrorCause (s : State) : Instr → Status → Prop where
  | pushPay {a : Byte} : s.pay.length = 255 → ErrorCause s (.pushPay a) .argErr
  | encode {c y : Byte} : s.payOvf = true → ErrorCause s (.encode c y) .argErr
  | stagePreset {x y : Half} : s.ps.length = 8 → ErrorCause s (.stagePreset x y) .argErr
  | applyPreset : s.ps.length ≠ 8 ∨ s.psOvf = true → ErrorCause s .applyPreset .argErr
  | setBand {a : Byte} {x y : Half} : 7 < a.toNat → ErrorCause s (.setBand a x y) .rangeErr
  | setBandGain {a : Byte} {x : Half} : 7 < a.toNat → ErrorCause s (.setBandGain a x) .rangeErr
  | setBandQ {a : Byte} {y : Half} : 7 < a.toNat → ErrorCause s (.setBandQ a y) .rangeErr
  | readBand {a : Byte} : 7 < a.toNat → ErrorCause s (.readBand a) .rangeErr
  | buildSelectEq {a : Byte} : ¬ (1 ≤ a.toNat ∧ a.toNat ≤ 4) → ErrorCause s (.buildSelectEq a) .rangeErr
  | pushRx {a : Byte} : s.rx.length = 261 → ErrorCause s (.pushRx a) .rxOverflow
  | decode : s.rxOvf = true → ErrorCause s .decode .rxOverflow

/-- No operation has causes for two statuses, so the order of R95 never has to choose. -/
theorem ErrorCause.unique {s : State} {i : Instr} {e e' : Status} (h : ErrorCause s i e) (h' : ErrorCause s i e') : e = e' := by
  cases h <;> cases h' <;> rfl

theorem argErr_cause_iff (s : State) (i : Instr) : ErrorCause s i .argErr ↔
    ((∃ a, i = .pushPay a) ∧ s.pay.length = 255) ∨ ((∃ c y, i = .encode c y) ∧ s.payOvf = true) ∨
    ((∃ x y, i = .stagePreset x y) ∧ s.ps.length = 8) ∨ (i = .applyPreset ∧ (s.ps.length ≠ 8 ∨ s.psOvf = true)) := by
  constructor
  · intro h
    cases h with
    | pushPay h => exact .inl ⟨⟨_, rfl⟩, h⟩
    | encode h => exact .inr (.inl ⟨⟨_, _, rfl⟩, h⟩)
    | stagePreset h => exact .inr (.inr (.inl ⟨⟨_, _, rfl⟩, h⟩))
    | applyPreset h => exact .inr (.inr (.inr ⟨rfl, h⟩))
  · rintro (⟨⟨a, rfl⟩, h⟩ | ⟨⟨c, y, rfl⟩, h⟩ | ⟨⟨x, y, rfl⟩, h⟩ | ⟨rfl, h⟩)
    · exact .pushPay h
    · exact .encode h
    · exact .stagePreset h
    · exact .applyPreset h

theorem rangeErr_cause_iff (s : State) (i : Instr) : ErrorCause s i .rangeErr ↔
    (∃ a : Byte, 7 < a.toNat ∧ ((∃ x y, i = .setBand a x y) ∨ (∃ x, i = .setBandGain a x) ∨ (∃ y, i = .setBandQ a y) ∨
      i = .readBand a)) ∨ (∃ a : Byte, i = .buildSelectEq a ∧ ¬ (1 ≤ a.toNat ∧ a.toNat ≤ 4)) := by
  constructor
  · intro h
    cases h with
    | setBand h => exact .inl ⟨_, h, .inl ⟨_, _, rfl⟩⟩
    | setBandGain h => exact .inl ⟨_, h, .inr (.inl ⟨_, rfl⟩)⟩
    | setBandQ h => exact .inl ⟨_, h, .inr (.inr (.inl ⟨_, rfl⟩))⟩
    | readBand h => exact .inl ⟨_, h, .inr (.inr (.inr rfl))⟩
    | buildSelectEq h => exact .inr ⟨_, rfl, h⟩
  · rintro (⟨a, h, ⟨x, y, rfl⟩ | ⟨x, rfl⟩ | ⟨y, rfl⟩ | rfl⟩ | ⟨a, rfl, h⟩)
    · exact .setBand h
    · exact .setBandGain h
    · exact .setBandQ h
    · exact .readBand h
    · exact .buildSelectEq h

theorem rxOverflow_cause_iff (s : State) (i : Instr) : ErrorCause s i .rxOverflow ↔
    ((∃ a, i = .pushRx a) ∧ s.rx.length = 261) ∨ (i = .decode ∧ s.rxOvf = true) := by
  constructor
  · intro h
    cases h with
    | pushRx h => exact .inl ⟨⟨_, rfl⟩, h⟩
    | decode h => exact .inr ⟨rfl, h⟩
  · rintro (⟨⟨a, rfl⟩, h⟩ | ⟨rfl, h⟩)
    · exact .pushRx h
    · exact .decode h

/-! ### The status that an operation answers -/

/-- Operation `i` in state `s` answers an error status exactly when it has the cause for it. -/
def AnswersByCause (i : Instr) (s : State) : Prop :=
  ∃ t r, exec i s = .next t ∧ t.resp = some r ∧ ∀ e, e ≠ .ok → (r.status = e ↔ ErrorCause s i e)

section
variable {i : Instr} {s u : State} {e : Status} {res : Half} {evt : Evt} {out : List Byte}

theorem answersByCause_error (hs : exec i s = .next (respond e res evt out u)) (h : ErrorCause s i e) :
    AnswersByCause i s :=
  ⟨_, _, hs, rfl, fun _ _ => ⟨fun he => he ▸ h, fun h' => h.unique h'⟩⟩

theorem answersByCause_ok (hs : exec i s = .next (respond .ok res evt out u)) (h : ∀ e, ¬ ErrorCause s i e) :
    AnswersByCause i s :=
  ⟨_, _, hs, rfl, fun e he => iff_of_false (Ne.symm he) (h e)⟩

end

/-- Every operation answers by the table of R92, in every state. -/
theorem answersByCause (i : Instr) (s : State) : AnswersByCause i s := by
  cases i with
  | pushPay a =>
    rcases exec_pushPay_cases a s with ⟨hfull, hs⟩ | ⟨hroom, hs⟩
    · exact answersByCause_error hs (.pushPay hfull)
    · exact answersByCause_ok hs fun | _, .pushPay h => hroom h
  | encode c y =>
    rcases exec_encode_cases c y s with ⟨hset, hs⟩ | ⟨hclear, hs⟩
    · exact answersByCause_error hs (.encode hset)
    · exact answersByCause_ok hs fun | _, .encode h => Bool.eq_false_iff.mp hclear h
  | pushRx a =>
    rcases exec_pushRx_cases a s with ⟨hfull, hs⟩ | ⟨hroom, hs⟩
    · exact answersByCause_error hs (.pushRx hfull)
    · exact answersByCause_ok hs fun | _, .pushRx h => hroom h
  | decode =>
    rcases exec_decode_cases s with ⟨hset, hs⟩ | ⟨hclear, hs⟩
    · exact answersByCause_error hs (.decode hset)
    · exact answersByCause_ok hs fun | _, .decode h => Bool.eq_false_iff.mp hclear h
  | setBand a x y =>
    rcases exec_setBand_cases a x y s with ⟨hout, hs⟩ | ⟨j, hj, hs⟩
    · exact answersByCause_error hs (.setBand hout)
    · exact answersByCause_ok hs fun | _, .setBand h => by omega
  | setBandGain a x =>
    rcases exec_setBandGain_cases a x s with ⟨hout, hs⟩ | ⟨j, hj, hs⟩
    · exact answersByCause_error hs (.setBandGain hout)
    · exact answersByCause_ok hs fun | _, .setBandGain h => by omega
  | setBandQ a y =>
    rcases exec_setBandQ_cases a y s with ⟨hout, hs⟩ | ⟨j, hj, hs⟩
    · exact answersByCause_error hs (.setBandQ hout)
    · exact answersByCause_ok hs fun | _, .setBandQ h => by omega
  | readBand a =>
    rcases exec_readBand_cases a s with ⟨hout, hs⟩ | ⟨j, hj, hs⟩
    · exact answersByCause_error hs (.readBand hout)
    · exact answersByCause_ok hs fun | _, .readBand h => by omega
  | stagePreset x y =>
    rcases exec_stagePreset_cases x y s with ⟨hfull, hs⟩ | ⟨hroom, hs⟩
    · exact answersByCause_error hs (.stagePreset hfull)
    · exact answersByCause_ok hs fun | _, .stagePreset h => hroom h
  | applyPreset =>
    rcases exec_applyPreset_cases s with ⟨hbad, hs⟩ | ⟨hclear, hlen, bands, -, hs⟩
    · exact answersByCause_error hs (.applyPreset hbad.symm)
    · exact answersByCause_ok hs fun | _, .applyPreset h => h.elim (absurd hlen) (Bool.eq_false_iff.mp hclear)
  | buildSelectEq a =>
    rcases exec_buildSelectEq_cases a s with ⟨hbad, hs⟩ | ⟨hok, hs⟩
    · exact answersByCause_error hs (.buildSelectEq hbad)
    · exact answersByCause_ok hs fun | _, .buildSelectEq h => h hok
  | encGain | decGain | encQ | decQ | resetEq | eqPayload | buildCustomEq | buildDevinfoReq | clear =>
    exact answersByCause_ok rfl nofun

theorem status_eq_iff_cause {i : Instr} {s t : State} {r : Response} (h : exec i s = .next t) (hr : t.resp = some r)
    (e : Status) (he : e ≠ .ok) : r.status = e ↔ ErrorCause s i e := by
  obtain ⟨u, r', hu, hr', hcause⟩ := answersByCause i s
  cases h.symm.trans hu
  cases hr.symm.trans hr'
  exact hcause e he

/-- Settles O56: the status is by cause, each status has the causes of its rows, and ILLEGAL_OP has none. -/
theorem errorStatusesHaveExactlyTheirCauses : Obligations.ErrorStatusesHaveExactlyTheirCauses := by
  intro i s t r h hr
  refine ⟨?_, ?_, ?_, ?_⟩
  · rw [status_eq_iff_cause h hr .argErr nofun, argErr_cause_iff]
  · rw [status_eq_iff_cause h hr .rangeErr nofun, rangeErr_cause_iff]
  · rw [status_eq_iff_cause h hr .rxOverflow nofun, rxOverflow_cause_iff]
  · rw [Ne, status_eq_iff_cause h hr .illegalOp nofun]
    exact nofun

/-! ### FORMAT_ERROR -/

theorem classify_devinfo_short {p : List Byte} (h : p.length < 5) :
    classify (0x51 :: 0x58 :: 0x57 :: 0x27 :: 0x02 :: p) = plainEvt .formatError true 0x27 := by
  rcases devinfoParse_cases p with ⟨-, hparse⟩ | ⟨hlong, -⟩
  · exact classifyCode_devinfo_short hparse
  · omega

theorem devinfo_short_of_classifyCode {c b4 : Byte} {p : List Byte} (h : (classifyCode c b4 p).kind = .formatError) :
    c = 0x27 ∧ b4 = 0x02 ∧ p.length < 5 := by
  rcases eq_or_ne c 0x10 with rfl | hselect
  · cases h
  rcases eq_or_ne c 0x20 with rfl | hcustom
  · cases h
  rcases eq_or_ne c 0x27 with rfl | hdev
  · rcases eq_or_ne b4 0x02 with rfl | hsub
    · rcases devinfoParse_cases p with ⟨hshort, -⟩ | ⟨-, l, r, -, -, hparse⟩
      · exact ⟨rfl, rfl, hshort⟩
      · rw [classifyCode_devinfo hparse] at h
        cases h
    · rw [classifyCode_devinfo_subcode p hsub] at h
      cases h
  · rw [classifyCode_unknown b4 p hselect hcustom hdev] at h
    cases h

/-- Only a DeviceInfo response with fewer than 5 info bytes is a FORMAT_ERROR. -/
theorem devinfo_short_of_classify {b : List Byte} (h : (classify b).kind = .formatError) :
    ∃ p, b = 0x51 :: 0x58 :: 0x57 :: 0x27 :: 0x02 :: p ∧ p.length < 5 := by
  rcases classify_cases b with ⟨-, hclass⟩ | ⟨c, b4, p, rfl, hclass⟩ <;> rw [hclass] at h
  · cases h
  · obtain ⟨rfl, rfl, hshort⟩ := devinfo_short_of_classifyCode h
    exact ⟨p, rfl, hshort⟩

theorem devinfo_short_iff (b : List Byte) : (∃ p, b = 0x51 :: 0x58 :: 0x57 :: 0x27 :: 0x02 :: p ∧ p.length < 5) ↔
    b.take 5 = [0x51, 0x58, 0x57, 0x27, 0x02] ∧ b.length < 10 := by
  constructor
  · rintro ⟨p, rfl, hshort⟩
    exact ⟨rfl, Nat.add_lt_add_right hshort 5⟩
  · rintro ⟨hhead, hlen⟩
    refine ⟨b.drop 5, ?_, by rw [List.length_drop]; omega⟩
    conv_lhs => rw [← List.take_append_drop 5 b, hhead]
    rfl

/-- Settles O57: DECODE's event has the kind of the classification, and a FORMAT_ERROR is the plain one. -/
theorem formatErrorIsAnEventNotAStatus : Obligations.FormatErrorIsAnEventNotAStatus := by
  intro s hclear
  rcases exec_decode_cases s with ⟨hset, -⟩ | ⟨-, hs⟩
  · exact absurd hset (Bool.eq_false_iff.mp hclear)
  · refine ⟨_, hs, notificationEvt s.rx, respond_reports .., ?_, fun hkind => ?_, fun hno => ?_⟩
    · rw [← devinfo_short_iff]
      refine ⟨devinfo_short_of_classify, ?_⟩
      rintro ⟨p, hrx, hshort⟩
      rw [hrx, notificationEvt, classify_devinfo_short hshort]
      rfl
    · obtain ⟨p, hrx, hshort⟩ := devinfo_short_of_classify hkind
      rw [hrx, notificationEvt, classify_devinfo_short hshort]
      exact ⟨rfl, plainEvt_noDeviceInfo .formatError true 0x27⟩
    · rw [notificationEvt, classify_of_no_frame hno.symm]
      rfl

end Sys2Proof.Machine
end

section
/-! SUPPORT. The statement on reset (70_reset_and_hazards.md R100): the step on `rst`, beside the steps on no input and on a command
word, and from it the reset values and the first operation after them. -/

namespace Sys2Proof.Machine

theorem step_rst {s : State} {rest : List HostInput} (h : s.inputs = .rst :: rest) :
    step s = .next (hardReset { s with inputs := rest }) := by
  simp only [step, takeInput_cons h]

/-- Each band holds the reset values of R13. -/
theorem hardReset_band_get (s : State) (i : Fin 8) : (hardReset s).band[i] = ⟨120, 7⟩ := defaultBands_get i

/-- The first word presented after `rst` is performed on the reset state: nothing of the state before is left in it. -/
theorem step_hardReset_of_command {s : State} {w : Word} {rest : List HostInput} (h : s.inputs = .command w :: rest) :
    step (hardReset s) = stepWord w { State.reset with inputs := rest } :=
  step_command ((hardReset_inputs s).trans h)

/-- Settles O1: the step on `rst` is `hardReset`, whose fields are the reset values whatever the state was. -/
theorem rstSetsEveryFieldToItsResetValue : Obligations.RstSetsEveryFieldToItsResetValue := by
  intro s rest hin
  refine ⟨_, step_rst hin, fun i => ?_, hardReset_pay _, hardReset_payOvf _, hardReset_rx _, hardReset_rxOvf _,
    hardReset_ps _, hardReset_psOvf _, hardReset_resp _, hardReset_inputs _, fun w rest' hnext => ?_⟩
  · rw [hardReset_band_get]
    exact ⟨rfl, rfl⟩
  · exact step_hardReset_of_command hnext

end Sys2Proof.Machine
end
